-- ==== Sys2Proof/Word.lean ====
section
/-! DEFINITION. The word types of the machine: bytes, 16-bit words, 12-bit addresses, register and key
numbers (00_scope.md R4, R8; 30_encoding.md R51). Every quantity of this hardware is unsigned. -/

namespace Sys2Proof

/-- A general register, a timer, a memory cell, an immediate `nn` (00_scope.md R4 P3). -/
abbrev Byte := BitVec 8

/-- The index register, the program counter, a return address, an instruction word (R4 P4, P7). -/
abbrev Word := BitVec 16

/-- The field `nnn` of an instruction (30_encoding.md R51). -/
abbrev Addr12 := BitVec 12

/-- One of the four 4-bit fields of an instruction word (30_encoding.md R51). -/
abbrev Nibble := BitVec 4

/-- The number of a general register, a 4-bit field that is always in range (10_state.md R10). -/
abbrev Reg := Fin 16

/-- A key of the 16-key namespace (00_scope.md R4 P14; 44_key_timer_random.md R147). -/
abbrev Key := Fin 16

/-- The row count `n` of Dxyn, 0..15 (30_encoding.md R56). -/
abbrev Rows := Fin 16

/-- `VF` is `V[15]`, a general register and the flag at once (10_state.md R11). -/
abbrev VF : Reg := 15

/-- `MEM_SIZE`, the number of bytes of memory (00_scope.md R4 P1). -/
abbrev memSize : Nat := 4096

end Sys2Proof
end

