-- ==== Sys2Proof/Config.lean ====
section
/-! DEFINITION. What an implementation fixes (the open parameters P9 to P13 of 00_scope.md R4) and the
free values: the two inputs of a STEP and the order of STEPs and TICKs, which no rule constrains. The default values of the parameters are in
Machine/Params.lean. -/

namespace Sys2Proof

/-- The open parameters of the block (00_scope.md R4; 93_implementation_defined.md U10). A machine has one
`Config` for its whole life; no instruction and no event changes it. -/
structure Config where
  /-- P9 `FONT_BASE`, the address of glyph 0 (92_eei_decisions.md D1). -/
  fontBase   : Nat
  /-- P10 `LOAD_BASE`, the program load address and reset value of PC (D2). -/
  loadBase   : Nat
  /-- P11 `FONT_DATA`, glyph `g` in bytes `5*g .. 5*g+4` (20_memory.md R36, R37; D3). -/
  fontData   : Vector Byte 80
  /-- P12 `STACK_DEPTH`, `none` for an unbounded stack (10_state.md R16; D4). -/
  stackDepth : Option Nat
  /-- P13 `MEM_FILL`: the byte of each address listed here, 0x00 for every other address (D8). -/
  memFill    : List Host.Cell
deriving DecidableEq, Repr

/-- FREE VALUE: what the key-state source answers to the STEP with this index, when the event list does not
say; any of the 17 answers (44_key_timer_random.md R147; 93_implementation_defined.md U9). -/
opaque Config.freeKey : Nat → Option Key

/-- FREE VALUE: the byte the random source supplies to the STEP with this index, when the event list does
not say; any of the 256 bytes (44_key_timer_random.md R148; 93_implementation_defined.md U7). -/
opaque Config.freeRnd : Nat → Byte

/-- FREE VALUE: how many STEPs fall between the TICK with this index and the next one, when the event list does
not say; any number, zero included (60_exceptions.md R173, R174; 93_implementation_defined.md U8). Each gap is
finite and nothing else is said of it, so the sequences of gaps are exactly the interleavings that are weakly
fair to the timer clock (decision D29, log 25). -/
opaque Config.freeGap : Nat → Nat

end Sys2Proof
end

