-- ==== Sys2Proof/Syntax.lean ====
section
/-! DEFINITION. The 34 instructions, one constructor per row of opcode_table.json (30_encoding.md R54).
The normative name of an instruction is its four-digit pattern (R59); the constructors carry the usual
mnemonics and each docstring gives the pattern and the rule. Register numbers and immediates have the widths
of their encoding fields (R51, R56), so every term is an instruction the encoding can spell. -/

namespace Sys2Proof

/-- An instruction (30_encoding.md R54). -/
inductive Instr where
  /-- `00E0`, clear the framebuffer: R130. -/
  | cls
  /-- `00EE`, return from subroutine: R70. -/
  | ret
  /-- `1nnn`, jump: R71. -/
  | jp (nnn : Addr12)
  /-- `2nnn`, call subroutine: R72. -/
  | call (nnn : Addr12)
  /-- `3xnn`, skip if register equals immediate: R73. -/
  | seImm (x : Reg) (nn : Byte)
  /-- `4xnn`, skip if register differs from immediate: R74. -/
  | sneImm (x : Reg) (nn : Byte)
  /-- `5xy0`, skip if two registers are equal: R75. -/
  | seReg (x : Reg) (y : Reg)
  /-- `6xnn`, load immediate: R90. -/
  | ldImm (x : Reg) (nn : Byte)
  /-- `7xnn`, add immediate: R91. -/
  | addImm (x : Reg) (nn : Byte)
  /-- `8xy0`, copy register: R92. -/
  | ldReg (x : Reg) (y : Reg)
  /-- `8xy1`, bitwise OR: R93. -/
  | orReg (x : Reg) (y : Reg)
  /-- `8xy2`, bitwise AND: R94. -/
  | andReg (x : Reg) (y : Reg)
  /-- `8xy3`, bitwise exclusive OR: R95. -/
  | xorReg (x : Reg) (y : Reg)
  /-- `8xy4`, add with carry flag: R96. -/
  | addReg (x : Reg) (y : Reg)
  /-- `8xy5`, subtract Vy from Vx: R97. -/
  | subReg (x : Reg) (y : Reg)
  /-- `8xy6`, shift right by one; the field y is kept and has no effect (R57): R98. -/
  | shr (x : Reg) (y : Reg)
  /-- `8xy7`, subtract Vx from Vy into Vx: R99. -/
  | subnReg (x : Reg) (y : Reg)
  /-- `8xyE`, shift left by one; the field y is kept and has no effect (R57): R100. -/
  | shl (x : Reg) (y : Reg)
  /-- `9xy0`, skip if two registers differ: R76. -/
  | sneReg (x : Reg) (y : Reg)
  /-- `Annn`, load index register: R110. -/
  | ldI (nnn : Addr12)
  /-- `Bnnn`, jump with offset V0: R77. -/
  | jpV0 (nnn : Addr12)
  /-- `Cxnn`, random byte under a mask: R140. -/
  | rndImm (x : Reg) (nn : Byte)
  /-- `Dxyn`, draw a sprite: R131. -/
  | drw (x : Reg) (y : Reg) (n : Rows)
  /-- `Ex9E`, skip if the key in Vx is the pressed key: R141. -/
  | skp (x : Reg)
  /-- `ExA1`, skip if the key in Vx is not the pressed key: R142. -/
  | sknp (x : Reg)
  /-- `Fx07`, read the delay timer: R143. -/
  | ldVxDt (x : Reg)
  /-- `Fx0A`, wait for a key: R144. -/
  | ldVxK (x : Reg)
  /-- `Fx15`, set the delay timer: R145. -/
  | ldDtVx (x : Reg)
  /-- `Fx18`, set the sound timer: R146. -/
  | ldStVx (x : Reg)
  /-- `Fx1E`, add register to index register: R111. -/
  | addI (x : Reg)
  /-- `Fx29`, point I at a font glyph: R112. -/
  | ldF (x : Reg)
  /-- `Fx33`, store the decimal digits of a register: R113. -/
  | ldB (x : Reg)
  /-- `Fx55`, store registers V0..Vx to memory: R114. -/
  | stRegs (x : Reg)
  /-- `Fx65`, load registers V0..Vx from memory: R115. -/
  | ldRegs (x : Reg)
deriving DecidableEq, Repr

end Sys2Proof
end

