-- ==== Sys2Proof/WellFormed.lean ====
section
/-! DEFINITION. What is well formed: an instruction, the parameters of a machine (the constraints of
00_scope.md R4) and a program image for it (70_reset_and_hazards.md R191). -/

namespace Sys2Proof

/-- Every instruction is well formed: the fields of each constructor have exactly the width of its encoding
field, no field value is reserved, and the ignored `y` of 8xy6 and 8xyE may be anything (30_encoding.md R56,
R57, R61). The check therefore refuses nothing; it is written arm by arm so that a new constructor must say
what it needs. -/
def Instr.wellFormed : Instr → Bool
  | .cls | .ret => true
  | .jp _ | .call _ | .ldI _ | .jpV0 _ => true
  | .seImm _ _ | .sneImm _ _ | .ldImm _ _ | .addImm _ _ | .rndImm _ _ => true
  | .seReg _ _ | .sneReg _ _ | .ldReg _ _ | .orReg _ _ | .andReg _ _ | .xorReg _ _ => true
  | .addReg _ _ | .subReg _ _ | .subnReg _ _ | .shr _ _ | .shl _ _ => true
  | .drw _ _ _ => true
  | .skp _ | .sknp _ | .ldVxDt _ | .ldVxK _ | .ldDtVx _ | .ldStVx _ => true
  | .addI _ | .ldF _ | .ldB _ | .stRegs _ | .ldRegs _ => true

/-- The font region lies inside memory: `FONT_BASE + 80 <= MEM_SIZE` (00_scope.md R4). -/
def Config.fontFits (c : Config) : Bool := c.fontBase + 80 ≤ memSize

/-- The first fetch is inside memory: `LOAD_BASE <= MEM_SIZE - 2` (00_scope.md R4). -/
def Config.loadFits (c : Config) : Bool := c.loadBase + 2 ≤ memSize

/-- The constraints of R4 on the parameters alone. -/
def Config.wellFormed (c : Config) : Bool := c.fontFits && c.loadFits

/-- A program image fits: `LOAD_BASE + L <= 4096` (70_reset_and_hazards.md R191). -/
def Config.imageFits (c : Config) (program : List Byte) : Bool :=
  c.loadBase + program.length ≤ memSize

/-- The font region and the program region do not overlap (00_scope.md R4). -/
def Config.imageDisjoint (c : Config) (program : List Byte) : Bool :=
  program.isEmpty || c.fontBase + 80 ≤ c.loadBase || c.loadBase + program.length ≤ c.fontBase

/-- All the constraints of R4 and R191 on a launch. -/
def Config.launchWellFormed (c : Config) (program : List Byte) : Bool :=
  c.wellFormed && c.imageFits program && c.imageDisjoint program

end Sys2Proof
end

