-- ==== Sys2Proof/Decode.lean ====
section
/-! DEFINITION. Decoding and encoding, both from the opcode map of 30_encoding.md R54 and the fields of R51:
the decoder dispatches family by family on `op`, the encoder writes the four nibbles of the pattern, and
`opcodeTable` holds the map's mask and match columns. -/

namespace Sys2Proof

/-! ## Fields of an instruction word (30_encoding.md R51) -/

/-- `op = w[15:12]`, the opcode family. -/
def opField (w : Word) : Nibble := w.extractLsb 15 12

/-- `x = w[11:8]` as a register number. -/
def xField (w : Word) : Reg := (w.extractLsb 11 8).toFin

/-- `y = w[7:4]` as a register number. -/
def yField (w : Word) : Reg := (w.extractLsb 7 4).toFin

/-- `n = w[3:0]`, the low nibble. -/
def nField (w : Word) : Rows := (w.extractLsb 3 0).toFin

/-- `nn = w[7:0]`, the low byte. -/
def nnField (w : Word) : Byte := w.extractLsb 7 0

/-- `nnn = w[11:0]`, the low twelve bits. -/
def nnnField (w : Word) : Addr12 := w.extractLsb 11 0

/-! ## The decoder -/

/-- Why bytes are no instruction. -/
inductive Reject where
  /-- The word matches none of the 34 patterns (30_encoding.md R55); it carries the raw word (R161). -/
  | invalidInstruction (w : Word)
  /-- Fewer than the two bytes of an instruction (R50). -/
  | truncated
deriving DecidableEq, Repr

/-- Family 0 selects on the whole word. -/
def decode0 (w : Word) : Except Reject Instr :=
  match w.toNat with
  | 0x00E0 => .ok .cls
  | 0x00EE => .ok .ret
  | _ => .error (.invalidInstruction w)

/-- Family 8 selects on `n`. -/
def decode8 (w : Word) : Except Reject Instr :=
  match (nField w).val with
  | 0x0 => .ok (.ldReg (xField w) (yField w))
  | 0x1 => .ok (.orReg (xField w) (yField w))
  | 0x2 => .ok (.andReg (xField w) (yField w))
  | 0x3 => .ok (.xorReg (xField w) (yField w))
  | 0x4 => .ok (.addReg (xField w) (yField w))
  | 0x5 => .ok (.subReg (xField w) (yField w))
  | 0x6 => .ok (.shr (xField w) (yField w))
  | 0x7 => .ok (.subnReg (xField w) (yField w))
  | 0xE => .ok (.shl (xField w) (yField w))
  | _ => .error (.invalidInstruction w)

/-- Family E selects on `nn`. -/
def decodeE (w : Word) : Except Reject Instr :=
  match (nnField w).toNat with
  | 0x9E => .ok (.skp (xField w))
  | 0xA1 => .ok (.sknp (xField w))
  | _ => .error (.invalidInstruction w)

/-- Family F selects on `nn`. -/
def decodeF (w : Word) : Except Reject Instr :=
  match (nnField w).toNat with
  | 0x07 => .ok (.ldVxDt (xField w))
  | 0x0A => .ok (.ldVxK (xField w))
  | 0x15 => .ok (.ldDtVx (xField w))
  | 0x18 => .ok (.ldStVx (xField w))
  | 0x1E => .ok (.addI (xField w))
  | 0x29 => .ok (.ldF (xField w))
  | 0x33 => .ok (.ldB (xField w))
  | 0x55 => .ok (.stRegs (xField w))
  | 0x65 => .ok (.ldRegs (xField w))
  | _ => .error (.invalidInstruction w)

/-- The decoder: a total function of the word alone (30_encoding.md R54, R55, R58, R62). Families 5 and 9
require `n = 0` (decision D19, log 20). -/
def decodeWord (w : Word) : Except Reject Instr :=
  match (opField w).toNat with
  | 0x0 => decode0 w
  | 0x1 => .ok (.jp (nnnField w))
  | 0x2 => .ok (.call (nnnField w))
  | 0x3 => .ok (.seImm (xField w) (nnField w))
  | 0x4 => .ok (.sneImm (xField w) (nnField w))
  | 0x5 => if nField w = 0 then .ok (.seReg (xField w) (yField w)) else .error (.invalidInstruction w)
  | 0x6 => .ok (.ldImm (xField w) (nnField w))
  | 0x7 => .ok (.addImm (xField w) (nnField w))
  | 0x8 => decode8 w
  | 0x9 => if nField w = 0 then .ok (.sneReg (xField w) (yField w)) else .error (.invalidInstruction w)
  | 0xA => .ok (.ldI (nnnField w))
  | 0xB => .ok (.jpV0 (nnnField w))
  | 0xC => .ok (.rndImm (xField w) (nnField w))
  | 0xD => .ok (.drw (xField w) (yField w) (nField w))
  | 0xE => decodeE w
  | _ => decodeF w

/-- Decoding bytes as memory holds them, the high byte first (20_memory.md R32): the instruction and the
bytes after it, or the reason there is none. -/
def decode : List Byte → Except Reject (Instr × List Byte)
  | hi :: lo :: rest =>
    match decodeWord (hi ++ lo) with
    | .ok i => .ok (i, rest)
    | .error e => .error e
  | _ => .error .truncated

/-! ## The encoder -/

/-- The word with these four nibbles, `op ## x ## y ## n` (30_encoding.md R51). -/
def ofNibbles (op x y n : Nibble) : Word := op ++ x ++ y ++ n

/-- The word `op ## x ## nn`. -/
def ofNibblesByte (op x : Nibble) (nn : Byte) : Word := op ++ x ++ nn

/-- The word `op ## nnn`. -/
def ofNibbleAddr (op : Nibble) (nnn : Addr12) : Word := op ++ nnn

/-- A 4-bit field from a register number or a row count. -/
def nibble (x : Fin 16) : Nibble := BitVec.ofFin x

/-- The word of an instruction, from the pattern column of 30_encoding.md R54. -/
def encode : Instr → Word
  | .cls => 0x00E0
  | .ret => 0x00EE
  | .jp nnn => ofNibbleAddr 0x1 nnn
  | .call nnn => ofNibbleAddr 0x2 nnn
  | .seImm x nn => ofNibblesByte 0x3 (nibble x) nn
  | .sneImm x nn => ofNibblesByte 0x4 (nibble x) nn
  | .seReg x y => ofNibbles 0x5 (nibble x) (nibble y) 0x0
  | .ldImm x nn => ofNibblesByte 0x6 (nibble x) nn
  | .addImm x nn => ofNibblesByte 0x7 (nibble x) nn
  | .ldReg x y => ofNibbles 0x8 (nibble x) (nibble y) 0x0
  | .orReg x y => ofNibbles 0x8 (nibble x) (nibble y) 0x1
  | .andReg x y => ofNibbles 0x8 (nibble x) (nibble y) 0x2
  | .xorReg x y => ofNibbles 0x8 (nibble x) (nibble y) 0x3
  | .addReg x y => ofNibbles 0x8 (nibble x) (nibble y) 0x4
  | .subReg x y => ofNibbles 0x8 (nibble x) (nibble y) 0x5
  | .shr x y => ofNibbles 0x8 (nibble x) (nibble y) 0x6
  | .subnReg x y => ofNibbles 0x8 (nibble x) (nibble y) 0x7
  | .shl x y => ofNibbles 0x8 (nibble x) (nibble y) 0xE
  | .sneReg x y => ofNibbles 0x9 (nibble x) (nibble y) 0x0
  | .ldI nnn => ofNibbleAddr 0xA nnn
  | .jpV0 nnn => ofNibbleAddr 0xB nnn
  | .rndImm x nn => ofNibblesByte 0xC (nibble x) nn
  | .drw x y n => ofNibbles 0xD (nibble x) (nibble y) (nibble n)
  | .skp x => ofNibblesByte 0xE (nibble x) 0x9E
  | .sknp x => ofNibblesByte 0xE (nibble x) 0xA1
  | .ldVxDt x => ofNibblesByte 0xF (nibble x) 0x07
  | .ldVxK x => ofNibblesByte 0xF (nibble x) 0x0A
  | .ldDtVx x => ofNibblesByte 0xF (nibble x) 0x15
  | .ldStVx x => ofNibblesByte 0xF (nibble x) 0x18
  | .addI x => ofNibblesByte 0xF (nibble x) 0x1E
  | .ldF x => ofNibblesByte 0xF (nibble x) 0x29
  | .ldB x => ofNibblesByte 0xF (nibble x) 0x33
  | .stRegs x => ofNibblesByte 0xF (nibble x) 0x55
  | .ldRegs x => ofNibblesByte 0xF (nibble x) 0x65

/-! ## The opcode map as a table -/

/-- The mask and match columns of one row of 30_encoding.md R54. -/
structure OpcodeRow where
  mask    : Word
  pattern : Word
deriving DecidableEq, Repr

/-- A word matches a row when its fixed bits are the pattern's. -/
def OpcodeRow.selects (r : OpcodeRow) (w : Word) : Bool := w &&& r.mask == r.pattern

/-- The row of 30_encoding.md R54 an instruction belongs to. -/
def Instr.row : Instr → OpcodeRow
  | .cls => ⟨0xFFFF, 0x00E0⟩
  | .ret => ⟨0xFFFF, 0x00EE⟩
  | .jp _ => ⟨0xF000, 0x1000⟩
  | .call _ => ⟨0xF000, 0x2000⟩
  | .seImm _ _ => ⟨0xF000, 0x3000⟩
  | .sneImm _ _ => ⟨0xF000, 0x4000⟩
  | .seReg _ _ => ⟨0xF00F, 0x5000⟩
  | .ldImm _ _ => ⟨0xF000, 0x6000⟩
  | .addImm _ _ => ⟨0xF000, 0x7000⟩
  | .ldReg _ _ => ⟨0xF00F, 0x8000⟩
  | .orReg _ _ => ⟨0xF00F, 0x8001⟩
  | .andReg _ _ => ⟨0xF00F, 0x8002⟩
  | .xorReg _ _ => ⟨0xF00F, 0x8003⟩
  | .addReg _ _ => ⟨0xF00F, 0x8004⟩
  | .subReg _ _ => ⟨0xF00F, 0x8005⟩
  | .shr _ _ => ⟨0xF00F, 0x8006⟩
  | .subnReg _ _ => ⟨0xF00F, 0x8007⟩
  | .shl _ _ => ⟨0xF00F, 0x800E⟩
  | .sneReg _ _ => ⟨0xF00F, 0x9000⟩
  | .ldI _ => ⟨0xF000, 0xA000⟩
  | .jpV0 _ => ⟨0xF000, 0xB000⟩
  | .rndImm _ _ => ⟨0xF000, 0xC000⟩
  | .drw _ _ _ => ⟨0xF000, 0xD000⟩
  | .skp _ => ⟨0xF0FF, 0xE09E⟩
  | .sknp _ => ⟨0xF0FF, 0xE0A1⟩
  | .ldVxDt _ => ⟨0xF0FF, 0xF007⟩
  | .ldVxK _ => ⟨0xF0FF, 0xF00A⟩
  | .ldDtVx _ => ⟨0xF0FF, 0xF015⟩
  | .ldStVx _ => ⟨0xF0FF, 0xF018⟩
  | .addI _ => ⟨0xF0FF, 0xF01E⟩
  | .ldF _ => ⟨0xF0FF, 0xF029⟩
  | .ldB _ => ⟨0xF0FF, 0xF033⟩
  | .stRegs _ => ⟨0xF0FF, 0xF055⟩
  | .ldRegs _ => ⟨0xF0FF, 0xF065⟩

/-- The 34 rows, in the order of the table. -/
def opcodeTable : List OpcodeRow :=
  [ ⟨0xFFFF, 0x00E0⟩, ⟨0xFFFF, 0x00EE⟩, ⟨0xF000, 0x1000⟩, ⟨0xF000, 0x2000⟩,
    ⟨0xF000, 0x3000⟩, ⟨0xF000, 0x4000⟩, ⟨0xF00F, 0x5000⟩, ⟨0xF000, 0x6000⟩,
    ⟨0xF000, 0x7000⟩, ⟨0xF00F, 0x8000⟩, ⟨0xF00F, 0x8001⟩, ⟨0xF00F, 0x8002⟩,
    ⟨0xF00F, 0x8003⟩, ⟨0xF00F, 0x8004⟩, ⟨0xF00F, 0x8005⟩, ⟨0xF00F, 0x8006⟩,
    ⟨0xF00F, 0x8007⟩, ⟨0xF00F, 0x800E⟩, ⟨0xF00F, 0x9000⟩, ⟨0xF000, 0xA000⟩,
    ⟨0xF000, 0xB000⟩, ⟨0xF000, 0xC000⟩, ⟨0xF000, 0xD000⟩, ⟨0xF0FF, 0xE09E⟩,
    ⟨0xF0FF, 0xE0A1⟩, ⟨0xF0FF, 0xF007⟩, ⟨0xF0FF, 0xF00A⟩, ⟨0xF0FF, 0xF015⟩,
    ⟨0xF0FF, 0xF018⟩, ⟨0xF0FF, 0xF01E⟩, ⟨0xF0FF, 0xF029⟩, ⟨0xF0FF, 0xF033⟩,
    ⟨0xF0FF, 0xF055⟩, ⟨0xF0FF, 0xF065⟩ ]

/-! ## The table's numbering of bits -/

/-- The two bytes of the instruction whose bits are `w`, as memory holds them (big-endian, 20_memory.md R32).
The table numbers the bits of the one 16-bit word from its least significant bit; bits at or above `nbits`
are 0. -/
def tableBytes (nbits w : Nat) : List Byte :=
  let word : Word := BitVec.ofNat 16 (w % 2 ^ nbits)
  [word.extractLsb 15 8, word.extractLsb 7 0]

/-- The instruction the decoder reads from an instruction whose bits are `w`. -/
def decodeTableWord (nbits w : Nat) : Option Instr :=
  if nbits ≤ 16 then
    match decode (tableBytes nbits w) with
    | .ok (i, _) => some i
    | .error _ => none
  else none

end Sys2Proof
end

