-- ==== Sys2Proof/Machine/Params.lean ====
section
/-! DEFINITION. The default values of the open parameters (00_scope.md R4, 20_memory.md R37). They are
general knowledge or the spec's own choice, not the source's; claims about every machine quantify over
`Config` instead. -/

namespace Sys2Proof.Machine

/-- PRESUMED (93_implementation_defined.md G1, log 6): the customary hexadecimal font, five bytes a glyph
(20_memory.md R37). -/
def defaultFontData : Vector Byte 80 := #v[
  0xF0, 0x90, 0x90, 0x90, 0xF0,   0x20, 0x60, 0x20, 0x20, 0x70,
  0xF0, 0x10, 0xF0, 0x80, 0xF0,   0xF0, 0x10, 0xF0, 0x10, 0xF0,
  0x90, 0x90, 0xF0, 0x10, 0x10,   0xF0, 0x80, 0xF0, 0x10, 0xF0,
  0xF0, 0x80, 0xF0, 0x90, 0xF0,   0xF0, 0x10, 0x20, 0x40, 0x40,
  0xF0, 0x90, 0xF0, 0x90, 0xF0,   0xF0, 0x90, 0xF0, 0x10, 0xF0,
  0xF0, 0x90, 0xF0, 0x90, 0x90,   0xE0, 0x90, 0xE0, 0x90, 0xE0,
  0xF0, 0x80, 0x80, 0x80, 0xF0,   0xE0, 0x90, 0x90, 0x90, 0xE0,
  0xF0, 0x80, 0xF0, 0x80, 0xF0,   0xF0, 0x80, 0xF0, 0x80, 0x80 ]

/-- The default of every open parameter: `FONT_BASE = 0x000` and `LOAD_BASE = 0x200` (PRESUMED, G3, logs 4
and 5), the font above, an unbounded stack (D4, log 7), `MEM_FILL` all 0x00 (D8, log 8). -/
def defaultConfig : Config where
  fontBase   := 0x000
  loadBase   := 0x200
  fontData   := defaultFontData
  stackDepth := none
  memFill    := []

end Sys2Proof.Machine
end

