-- ==== Sys2Proof/Machine/State.lean ====
section
/-! DEFINITION. The state of the block (10_state.md), the events it takes part in (00_scope.md R5), the
reasons a step can stop, and the state after reset (10_state.md R24). All of it is plain data. -/

namespace Sys2Proof.Machine

/-- The framebuffer: 32 rows of 64 columns, one bit a pixel, row-major (10_state.md R19). -/
abbrev Screen := Vector (Vector Bool 64) 32

/-- The four fatal conditions (60_exceptions.md R160). A condition is TAKEN as R166 describes, in a next
state with `halted` set and the fault record written (`State.raise`); no step ever answers `.fault`, so the
machine loses none of its behaviour (log 13). -/
inductive Fault where
  /-- Raised by the decode of a word outside the 34 patterns (R161). Safe: the effect is the spec's. -/
  | invalidInstruction
  /-- Raised by 00EE on an empty call stack (R162). Safe: the effect is the spec's. -/
  | stackUnderflow
  /-- Raised by the fetch, Dxyn, Fx33, Fx55 and Fx65 at an address of 4096 or more (R163). Safe: a fatal
  condition where the source leaves the choice open (decision D5, log 10). -/
  | addressOutOfRange
  /-- Raised by 2nnn on a full call stack, for a finite `STACK_DEPTH` only (R164). Safe: the source has no
  bound (decision D4, log 7). -/
  | stackOverflow
deriving DecidableEq, Repr

/-- Why a step has no meaning. -/
inductive Refusal where
  /-- Raised by `exec` for an instruction that has no meaning yet; no arm of this model does. Safe. -/
  | notModelled (mnemonic : String)
  /-- Raised by a RESET event whose image does not fit above `LOAD_BASE`: "not a legal use of the block, and
  a model gives it no meaning" (70_reset_and_hazards.md R191, decision D9, log 15). No instruction raises it.
  Safe. -/
  | imageTooLong
deriving DecidableEq, Repr

/-- The events that change state (00_scope.md R5). One `step` of the model performs one of them. -/
inductive Event where
  /-- STEP(key, rnd): one fetch-decode-execute step with these inputs. -/
  | step (key : Option Key) (rnd : Byte)
  /-- TICK: the 60 Hz timer clock fires (60_exceptions.md R172). -/
  | tick
  /-- RESET(program) (70_reset_and_hazards.md R190, R193). -/
  | reset (program : List Byte)
deriving DecidableEq, Repr

/-- The MODEL's own fields: inputs to come, inputs sampled, outputs given. None is state of the spec
(10_state.md R23; 60_exceptions.md R170); logs 1, 2, 17 and 25. -/
structure Env where
  /-- The events still to come, oldest first; after the last one STEPs and TICKs follow in a free order. -/
  events : List Event
  /-- `key` as sampled for the current STEP (44_key_timer_random.md R147). -/
  key : Option Key
  /-- `rnd` as sampled for the current STEP (R148). -/
  rnd : Byte
  /-- How many STEPs took their inputs from the free values of `Config`. -/
  draws : Nat
  /-- How many STEPs come before the next TICK, once the list is empty (R173, R174). -/
  stepsToTick : Nat
  /-- How many TICKs took the gap after them from the free values of `Config`. -/
  ticksDrawn : Nat
  /-- How many tone notifications have been emitted (60_exceptions.md R175). -/
  tones : Nat
deriving DecidableEq, Repr

/-- The state of the machine (10_state.md), its parameters (00_scope.md R4) and the model's own fields. -/
structure State where
  /-- `V[0]..V[15]` (R10). -/
  v          : Vector Byte 16
  /-- `I` (R13). -/
  i          : Word
  /-- `PC` (R14). -/
  pc         : Word
  /-- `STACK`, the most recently pushed value first (R16, log 23). -/
  stack      : List Word
  /-- `DT` (R17). -/
  dt         : Byte
  /-- `ST` (R18). -/
  st         : Byte
  /-- `FB` (R19). -/
  fb         : Screen
  /-- `MEM` (R20): the bytes that differ from what an unlisted address reads as, addresses strictly rising
  (`Memory.read`, `Memory.wf`; log 19). -/
  mem        : List Host.Cell
  /-- `HALTED` (R21). -/
  halted     : Bool
  /-- `FAULT_CODE` (R22). -/
  faultCode  : BitVec 3
  /-- `FAULT_INSTR` (R22). -/
  faultInstr : Word
  /-- `FAULT_PC` (R22). -/
  faultPc    : Word
  /-- The parameters of this machine, which nothing changes (log 3). -/
  cfg        : Config
  /-- The model's own fields. -/
  env        : Env
deriving DecidableEq, Repr

/-- The model's own fields before any event (DESIGN CHOICE, logs 1, 2, 17 and 25; no statement rests on them). -/
def Env.initial : Env where
  events      := []
  key         := none
  rnd         := 0
  draws       := 0
  stepsToTick := 1
  ticksDrawn  := 0
  tones       := 0

/-- The machine right after RESET with the empty image and the default parameters (10_state.md R24). Memory
lists nothing: the font and `MEM_FILL` are what unlisted addresses read as. -/
def State.reset : State where
  v          := Vector.replicate 16 0
  i          := 0
  pc         := BitVec.ofNat 16 defaultConfig.loadBase
  stack      := []
  dt         := 0
  st         := 0
  fb         := Vector.replicate 32 (Vector.replicate 64 false)
  mem        := []
  halted     := false
  faultCode  := 0
  faultInstr := 0
  faultPc    := 0
  cfg        := defaultConfig
  env        := Env.initial

end Sys2Proof.Machine
end

