-- ==== Sys2Proof/Machine/Screen.lean ====
section
/-! DEFINITION. The blitter `framebuffer_xor_sprite_blitter_with_collision`: clear, XOR blit with collision,
and the pixel read (43_display.md R130 to R135). -/

namespace Sys2Proof.Machine

/-- `r mod 32`, the row a sprite row lands on (R132). -/
def rowIndex (r : Nat) : Fin 32 := ⟨r % 32, Nat.mod_lt _ (by decide)⟩

/-- `c mod 64`, the column a sprite bit lands on (R132). -/
def colIndex (c : Nat) : Fin 64 := ⟨c % 64, Nat.mod_lt _ (by decide)⟩

/-- `FB[r][c]`. -/
def Screen.pixel (fb : Screen) (r : Fin 32) (c : Fin 64) : Bool := (fb.get r).get c

/-- `FB[r][c] <- b`. -/
def Screen.setPixel (fb : Screen) (r : Fin 32) (c : Fin 64) (b : Bool) : Screen :=
  fb.set r ((fb.get r).set c b)

/-- `clear`: every pixel 0 (R130). -/
def Screen.clear : Screen := Vector.replicate 32 (Vector.replicate 64 false)

/-- A draw under way: the framebuffer so far, and whether a set pixel has been hit. -/
structure Blit where
  fb  : Screen
  hit : Bool
deriving DecidableEq, Repr

/-- A sprite 1-bit lands on `(r, c)`: a set pixel is a collision, and the pixel is toggled (R131). -/
def Blit.plot (b : Blit) (r : Fin 32) (c : Fin 64) : Blit where
  fb  := b.fb.setPixel r c (b.fb.pixel r c ^^ true)
  hit := b.fb.pixel r c || b.hit

/-- Bit `7-k` of the sprite byte goes to column `(vx + k) mod 64` of row `r` (R132); a 0 bit does nothing. -/
def Blit.bit (vx : Nat) (r : Fin 32) (byte : Byte) (b : Blit) (k : Nat) : Blit :=
  if byte.getLsbD (7 - k) then b.plot r (colIndex (vx + k)) else b

/-- One sprite byte, leftmost bit first. -/
def Blit.byte (vx : Nat) (r : Fin 32) (b : Blit) (byte : Byte) : Blit :=
  (List.range 8).foldl (Blit.bit vx r byte) b

/-- The sprite rows from row number `row` on. -/
def Blit.rows (vx vy : Nat) : Nat → List Byte → Blit → Blit
  | _, [], b => b
  | row, byte :: rest, b => Blit.rows vx vy (row + 1) rest (b.byte vx (rowIndex (vy + row)) byte)

/-- `blit(vx, vy, rows) -> collision` (R134): the new framebuffer and the collision bit. -/
def Screen.blit (fb : Screen) (vx vy : Nat) (rows : List Byte) : Blit :=
  Blit.rows vx vy 0 rows ⟨fb, false⟩

end Sys2Proof.Machine
end

