-- ==== Sys2Proof/Machine/Ops.lean ====
section
/-! DEFINITION. The named operations on the state: memory, registers, program counter, call stack, taking a
fatal condition, the timers, RESET, and the fetch. Every meaning is written over these. -/

namespace Sys2Proof.Machine

/-! ## Memory (20_memory.md) -/

/-- The byte a list of cells gives an address, if it lists it. -/
def Memory.find : List Host.Cell → Nat → Option Byte
  | [], _ => none
  | (b, x) :: m, a => if a = b then some x else Memory.find m a

/-- What an address that memory does not list reads as: its content before the program is loaded, the font
byte inside the font region and `MEM_FILL` elsewhere (20_memory.md R36; steps 1 and 2 of
70_reset_and_hazards.md R190). -/
def Memory.blank (c : Config) (a : Nat) : Byte :=
  if h : c.fontBase ≤ a ∧ a < c.fontBase + 80 then c.fontData[a - c.fontBase]'(by omega)
  else (Memory.find c.memFill a).getD 0

/-- `MEM[a]`. -/
def Memory.read (c : Config) (m : List Host.Cell) (a : Nat) : Byte :=
  (Memory.find m a).getD (Memory.blank c a)

/-- The cells with `a` listed as `x`, in order. -/
def Memory.insert (a : Nat) (x : Byte) : List Host.Cell → List Host.Cell
  | [] => [(a, x)]
  | (b, y) :: m =>
    if a < b then (a, x) :: (b, y) :: m
    else if a = b then (a, x) :: m
    else (b, y) :: Memory.insert a x m

/-- The cells with `a` not listed. -/
def Memory.erase (a : Nat) : List Host.Cell → List Host.Cell
  | [] => []
  | (b, y) :: m => if a = b then m else (b, y) :: Memory.erase a m

/-- `MEM[a] <- x`; writing what an unlisted address reads as removes the entry. -/
def Memory.write (c : Config) (m : List Host.Cell) (a : Nat) (x : Byte) : List Host.Cell :=
  if x = Memory.blank c a then Memory.erase a m else Memory.insert a x m

/-- The canonical form: addresses strictly rising, inside memory, and no entry that could be left out. -/
abbrev Memory.wf (c : Config) (m : List Host.Cell) : Prop :=
  m.Pairwise (fun p q => p.1 < q.1) ∧ ∀ p ∈ m, p.1 < memSize ∧ p.2 ≠ Memory.blank c p.1

/-- `MEM[a]` of a state; a read changes nothing (R39). -/
def State.readByte (s : State) (a : Nat) : Byte := Memory.read s.cfg s.mem a

/-- `MemWrite(a, 1, x)` inside memory. -/
def State.writeByte (s : State) (a : Nat) (x : Byte) : State :=
  { s with mem := Memory.write s.cfg s.mem a x }

/-- The bound check of R35 over the whole range `base .. base + len - 1`, without wrap-around; an empty
range makes no access and is always in range. -/
def inRange (base len : Nat) : Bool := len == 0 || base + len ≤ memSize

/-- The bytes at `base .. base + len - 1`, or `none` when one of them is outside memory (R34, R35). -/
def State.load (s : State) (base len : Nat) : Option (List Byte) :=
  if inRange base len then some ((List.range len).map fun k => s.readByte (base + k)) else none

/-- The stores of R41, in ascending address order. -/
def State.storeBytes (s : State) (base : Nat) : List Byte → State
  | [] => s
  | x :: rest => (s.writeByte base x).storeBytes (base + 1) rest

/-- The state with the bytes stored at `base`, or `none`, with nothing written, when one of them would be
outside memory (R35). -/
def State.store (s : State) (base : Nat) (bytes : List Byte) : Option State :=
  if inRange base bytes.length then some (s.storeBytes base bytes) else none

/-! ## Registers (10_state.md R10 to R15) -/

/-- `V[x]`. -/
def State.reg (s : State) (x : Reg) : Byte := s.v.get x

/-- `V[x] <- b`. -/
def State.setReg (s : State) (x : Reg) (b : Byte) : State := { s with v := s.v.set x b }

/-- Loads a run of bytes into `V[k]`, `V[k+1]`, ... in ascending order (42_index_memory.md R115). -/
def State.setRegsFrom (s : State) (k : Nat) : List Byte → State
  | [] => s
  | b :: rest => (if h : k < 16 then s.setReg ⟨k, h⟩ b else s).setRegsFrom (k + 1) rest

/-- `I <- w`. -/
def State.setIndex (s : State) (w : Word) : State := { s with i := w }

/-- `PC <- w`. -/
def State.setPc (s : State) (w : Word) : State := { s with pc := w }

/-- The advance of 30_encoding.md R53 step 2: `PC <- PC_instr + 2`, modulo 65536 (10_state.md R15). -/
def State.advance (s : State) : State := s.setPc (s.pc + 2)

/-- The effect of a skip: `PC <- PC + 2` when the condition holds (40_control_flow.md R78). -/
def State.skipIf (s : State) (c : Bool) : State := if c then s.setPc (s.pc + 2) else s

/-! ## Call stack (10_state.md R16) -/

/-- `STACK.push(w)`. -/
def State.push (s : State) (w : Word) : State := { s with stack := w :: s.stack }

/-- `STACK.depth == STACK_DEPTH`; never, for an unbounded stack (40_control_flow.md R72). -/
def State.stackFull (s : State) : Bool :=
  match s.cfg.stackDepth with
  | none => false
  | some d => s.stack.length == d

/-! ## Fatal conditions (60_exceptions.md R160 to R168) -/

/-- The code of a condition (R160, decision D12). -/
def Fault.code : Fault → BitVec 3
  | .invalidInstruction => 1
  | .stackUnderflow => 2
  | .addressOutOfRange => 3
  | .stackOverflow => 4

/-- Halt entry (R166): HALTED and the fault record, and nothing else; in particular PC stays at `PC_instr`
(R167). `w` is the instruction word, 0 for a fetch fault. -/
def State.raise (s : State) (f : Fault) (w : Word) : State :=
  { s with halted := true, faultCode := f.code, faultInstr := w, faultPc := s.pc }

/-! ## Timers (60_exceptions.md R172, R175) -/

/-- A countdown clamped at zero. -/
def countDown (t : Byte) : Byte := if 0 < t.toNat then t - 1 else t

/-- The tones a TICK emits: one when ST is above zero before the decrement, else none (R175). -/
def toneCount (st : Byte) : Nat := if 0 < st.toNat then 1 else 0

/-- TICK: both timers count down, and a tone is emitted when ST was above zero (R172, decision D21). -/
def State.tick (s : State) : State :=
  { s with
    dt := countDown s.dt
    st := countDown s.st
    env := { s.env with tones := s.env.tones + toneCount s.st } }

/-! ## Inputs (00_scope.md R5, R6) -/

/-- The inputs of a STEP are sampled once, when it is accepted. -/
def State.sample (s : State) (key : Option Key) (rnd : Byte) : State :=
  { s with env := { s.env with key := key, rnd := rnd } }

/-- The events still to come after one has been taken. -/
def State.withEvents (s : State) (es : List Event) : State :=
  { s with env := { s.env with events := es } }

/-- A STEP of the free schedule has been taken, and `k` more come before the next TICK. -/
def State.takeFreeStep (s : State) (k : Nat) : State :=
  { s with env := { s.env with stepsToTick := k, draws := s.env.draws + 1 } }

/-- A TICK of the free schedule has been taken: the gap to the next one is a free value. -/
def State.takeFreeTick (s : State) : State :=
  { s with
    env := { s.env with
      stepsToTick := Config.freeGap s.env.ticksDrawn
      ticksDrawn := s.env.ticksDrawn + 1 } }

/-- The event the block takes part in next: the first of the list, and after the list a TICK or a STEP with free
inputs, in a free order that never stops ticking (60_exceptions.md R173, R174, decision D29, logs 1, 2, 25). -/
def State.upcoming (s : State) : Event :=
  match s.env.events with
  | e :: _ => e
  | [] =>
    match s.env.stepsToTick with
    | 0 => .tick
    | _ + 1 => .step (Config.freeKey s.env.draws) (Config.freeRnd s.env.draws)

/-- The state with that event taken from the schedule. -/
def State.takeUpcoming (s : State) : State :=
  match s.env.events with
  | _ :: es => s.withEvents es
  | [] =>
    match s.env.stepsToTick with
    | 0 => s.takeFreeTick
    | k + 1 => s.takeFreeStep k

/-! ## RESET (70_reset_and_hazards.md R190) -/

/-- Every piece of state as R190 leaves it, for the machine's parameters: memory is font, `MEM_FILL` and then
the program; the model's own fields stay. Where the regions overlap the program's bytes win. -/
def State.launch (s : State) (program : List Byte) : State :=
  State.storeBytes
    { v := Vector.replicate 16 0
      i := 0
      pc := BitVec.ofNat 16 s.cfg.loadBase
      stack := []
      dt := 0
      st := 0
      fb := Screen.clear
      mem := []
      halted := false
      faultCode := 0
      faultInstr := 0
      faultPc := 0
      cfg := s.cfg
      env := s.env }
    s.cfg.loadBase program

/-! ## Fetch (30_encoding.md R53 step 1; 20_memory.md R32) -/

/-- `w <- MemRead(PC, 2)`, the byte at PC as the most significant byte; `none` when either byte is outside
memory. -/
def State.fetch (s : State) : Option Word :=
  match s.load s.pc.toNat 2 with
  | some [hi, lo] => some (hi ++ lo)
  | _ => none

end Sys2Proof.Machine
end

