-- ==== Sys2Proof/Machine/Operands.lean ====
section
/-! DEFINITION. The operand forms (00_scope.md section 6; 30_encoding.md R56): how an instruction gets each
value it uses. All of them read the state before the instruction's first write (41_alu.md R101). -/

namespace Sys2Proof.Machine

/-- `zext_16(v)`: zero-extension; nothing on this hardware is sign-extended (00_scope.md R8). -/
def zext16 {k : Nat} (v : BitVec k) : Word := v.setWidth 16

/-- The address operand `nnn` (30_encoding.md R56). -/
def immAddr (nnn : Addr12) : Word := zext16 nnn

/-- `zext_16(nnn) + zext_16(V[0])`, not reduced modulo 4096 (40_control_flow.md R77). -/
def State.immAddrPlusV0 (s : State) (nnn : Addr12) : Word := zext16 nnn + zext16 (s.reg 0)

/-- `I` as the base address of an access (42_index_memory.md R116). -/
def State.indexBase (s : State) : Nat := s.i.toNat

/-- The values of the run of registers V0..Vx, inclusive (10_state.md R12). -/
def State.regRun (s : State) (x : Reg) : List Byte :=
  (s.v.toList).take (x.val + 1)

/-- `zext_8(key) == V[x]`; "no key" equals no register value (44_key_timer_random.md R147, decision D18). -/
def State.keyMatches (s : State) (x : Reg) : Bool :=
  match s.env.key with
  | none => false
  | some k => (BitVec.ofNat 8 k.val) == s.reg x

/-- `rnd AND nn` (R140). -/
def State.maskedRandom (s : State) (nn : Byte) : Byte := s.env.rnd &&& nn

/-- `FONT_BASE + 5 * (V[x] AND 0x0F)` (42_index_memory.md R112). -/
def State.glyphAddress (s : State) (x : Reg) : Word :=
  BitVec.ofNat 16 (s.cfg.fontBase + 5 * (s.reg x &&& 0x0F).toNat)

/-- The three decimal digits of a byte, hundreds first (42_index_memory.md R113). -/
def decimalDigits (b : Byte) : List Byte :=
  [BitVec.ofNat 8 (b.toNat / 100), BitVec.ofNat 8 (b.toNat / 10 % 10), BitVec.ofNat 8 (b.toNat % 10)]

end Sys2Proof.Machine
end

