-- ==== Sys2Proof/Machine/Flags.lean ====
section
/-! DEFINITION. The ALU `alu_with_carry_borrow_flags` and every flag computation (41_alu.md R102 to R104;
42_index_memory.md R111). Sums and differences are exact and narrowed at the end. -/

namespace Sys2Proof.Machine

/-- The outputs of an ALU function that writes a flag: `r` for Vx and `f` for VF (41_alu.md R103). -/
structure AluOut where
  r : Byte
  f : Bool
deriving DecidableEq, Repr

/-- 8xy4: `r = (a + b) mod 256`, `f = a + b > 255`. -/
def aluAdd (a b : Byte) : AluOut where
  r := BitVec.ofNat 8 (a.toNat + b.toNat)
  f := a.toNat + b.toNat > 255

/-- 8xy5, and 8xy7 with its operands exchanged: `r = (a - b) mod 256`, `f = a > b`, strictly (R102). -/
def aluSub (a b : Byte) : AluOut where
  r := BitVec.ofInt 8 ((a.toNat : Int) - b.toNat)
  f := a.toNat > b.toNat

/-- 8xy6: `r = a >> 1`, `f = a[0]`. -/
def aluShr (a : Byte) : AluOut where
  r := a >>> 1
  f := a.getLsbD 0

/-- 8xyE: `r = (a << 1) mod 256`, `f = a[7]`. -/
def aluShl (a : Byte) : AluOut where
  r := a <<< 1
  f := a.getLsbD 7

/-- A flag as VF holds it, `0x00` or `0x01` (10_state.md R11). -/
def flagByte (f : Bool) : Byte := if f then 1 else 0

/-- VF first, then Vx: 8xy4, 8xy5 and 8xy7 (R104). -/
def State.writeFlagThenReg (s : State) (x : Reg) (o : AluOut) : State :=
  (s.setReg VF (flagByte o.f)).setReg x o.r

/-- Vx first, then VF: 8xy6 and 8xyE (R104). -/
def State.writeRegThenFlag (s : State) (x : Reg) (o : AluOut) : State :=
  (s.setReg x o.r).setReg VF (flagByte o.f)

/-- `I + zext_16(V[x])` as an unbounded sum (42_index_memory.md R111). -/
def State.indexSum (s : State) (x : Reg) : Nat := s.i.toNat + (s.reg x).toNat

/-- Fx1E sets VF to 1 when the untruncated sum is 4096 or more, and otherwise leaves it (R111, decision D11). -/
def State.setFlagIfIndexOver (s : State) (sum : Nat) : State :=
  if 4096 ≤ sum then s.setReg VF 1 else s

end Sys2Proof.Machine
end

