-- ==== Sys2Proof/Machine/Alu.lean ====
section
/-! DEFINITION. Register load and ALU: 6xnn, 7xnn, 8xy0 to 8xy7, 8xyE (41_alu.md). Operands are sampled from
the state before the instruction's first write (R101, decision D10). -/

namespace Sys2Proof.Machine

/-- `6xnn` (R90). -/
def execLdImm (x : Reg) (nn : Byte) (s : State) : Host.Outcome State Fault Refusal :=
  .next (s.advance.setReg x nn)

/-- `7xnn` (R91): no flag. -/
def execAddImm (x : Reg) (nn : Byte) (s : State) : Host.Outcome State Fault Refusal :=
  .next (s.advance.setReg x (aluAdd (s.reg x) nn).r)

/-- `8xy0` (R92). -/
def execLdReg (x y : Reg) (s : State) : Host.Outcome State Fault Refusal :=
  .next (s.advance.setReg x (s.reg y))

/-- `8xy1` (R93). -/
def execOrReg (x y : Reg) (s : State) : Host.Outcome State Fault Refusal :=
  .next (s.advance.setReg x (s.reg x ||| s.reg y))

/-- `8xy2` (R94). -/
def execAndReg (x y : Reg) (s : State) : Host.Outcome State Fault Refusal :=
  .next (s.advance.setReg x (s.reg x &&& s.reg y))

/-- `8xy3` (R95). -/
def execXorReg (x y : Reg) (s : State) : Host.Outcome State Fault Refusal :=
  .next (s.advance.setReg x (s.reg x ^^^ s.reg y))

/-- `8xy4` (R96). -/
def execAddReg (x y : Reg) (s : State) : Host.Outcome State Fault Refusal :=
  .next (s.advance.writeFlagThenReg x (aluAdd (s.reg x) (s.reg y)))

/-- `8xy5` (R97). -/
def execSubReg (x y : Reg) (s : State) : Host.Outcome State Fault Refusal :=
  .next (s.advance.writeFlagThenReg x (aluSub (s.reg x) (s.reg y)))

/-- `8xy6` (R98): `y` is ignored (30_encoding.md R57). -/
def execShr (x : Reg) (_y : Reg) (s : State) : Host.Outcome State Fault Refusal :=
  .next (s.advance.writeRegThenFlag x (aluShr (s.reg x)))

/-- `8xy7` (R99). -/
def execSubnReg (x y : Reg) (s : State) : Host.Outcome State Fault Refusal :=
  .next (s.advance.writeFlagThenReg x (aluSub (s.reg y) (s.reg x)))

/-- `8xyE` (R100): `y` is ignored (30_encoding.md R57). -/
def execShl (x : Reg) (_y : Reg) (s : State) : Host.Outcome State Fault Refusal :=
  .next (s.advance.writeRegThenFlag x (aluShl (s.reg x)))

end Sys2Proof.Machine
end

