-- ==== Sys2Proof/Machine/Control.lean ====
section
/-! DEFINITION. Control transfer: 00EE, 1nnn, 2nnn, 3xnn, 4xnn, 5xy0, 9xy0, Bnnn (40_control_flow.md). -/

namespace Sys2Proof.Machine

/-- `00EE` (R70): StackUnderflow on an empty stack, else PC is the popped value. -/
def execRet (s : State) : Host.Outcome State Fault Refusal :=
  match s.stack with
  | [] => .next (s.raise .stackUnderflow (encode .ret))
  | target :: rest => .next ({ s with stack := rest }.setPc target)

/-- `1nnn` (R71). -/
def execJp (nnn : Addr12) (s : State) : Host.Outcome State Fault Refusal :=
  .next (s.setPc (immAddr nnn))

/-- `2nnn` (R72): StackOverflow on a full stack, else the address after the call is pushed. -/
def execCall (nnn : Addr12) (s : State) : Host.Outcome State Fault Refusal :=
  if s.stackFull then .next (s.raise .stackOverflow (encode (.call nnn)))
  else .next ((s.push s.advance.pc).setPc (immAddr nnn))

/-- `3xnn` (R73). -/
def execSeImm (x : Reg) (nn : Byte) (s : State) : Host.Outcome State Fault Refusal :=
  .next (s.advance.skipIf (s.reg x == nn))

/-- `4xnn` (R74). -/
def execSneImm (x : Reg) (nn : Byte) (s : State) : Host.Outcome State Fault Refusal :=
  .next (s.advance.skipIf (s.reg x != nn))

/-- `5xy0` (R75). -/
def execSeReg (x y : Reg) (s : State) : Host.Outcome State Fault Refusal :=
  .next (s.advance.skipIf (s.reg x == s.reg y))

/-- `9xy0` (R76). -/
def execSneReg (x y : Reg) (s : State) : Host.Outcome State Fault Refusal :=
  .next (s.advance.skipIf (s.reg x != s.reg y))

/-- `Bnnn` (R77). -/
def execJpV0 (nnn : Addr12) (s : State) : Host.Outcome State Fault Refusal :=
  .next (s.setPc (s.immAddrPlusV0 nnn))

end Sys2Proof.Machine
end

