-- ==== Sys2Proof/Machine/Display.lean ====
section
/-! DEFINITION. Display: 00E0 and Dxyn (43_display.md). -/

namespace Sys2Proof.Machine

/-- `00E0` (R130). -/
def execCls (s : State) : Host.Outcome State Fault Refusal :=
  .next { s.advance with fb := Screen.clear }

/-- `Dxyn` (R131): the `n` sprite bytes at I, XORed in at column Vx and row Vy, both sampled before VF is
written (41_alu.md R101); VF is the collision bit, 0 for `n = 0`. -/
def execDrw (x y : Reg) (n : Rows) (s : State) : Host.Outcome State Fault Refusal :=
  match s.load s.indexBase n.val with
  | some rows =>
    let b := s.fb.blit (s.reg x).toNat (s.reg y).toNat rows
    .next ({ s.advance with fb := b.fb }.setReg VF (flagByte b.hit))
  | none => .next (s.raise .addressOutOfRange (encode (.drw x y n)))

end Sys2Proof.Machine
end

