-- ==== Sys2Proof/Machine/Index.lean ====
section
/-! DEFINITION. Index register and memory: Annn, Fx1E, Fx29, Fx33, Fx55, Fx65 (42_index_memory.md). The bound
check covers the whole range before any write; I is a base address and is not written by Fx33, Fx55, Fx65
(R116). -/

namespace Sys2Proof.Machine

/-- `Annn` (R110). -/
def execLdI (nnn : Addr12) (s : State) : Host.Outcome State Fault Refusal :=
  .next (s.advance.setIndex (immAddr nnn))

/-- `Fx1E` (R111). -/
def execAddI (x : Reg) (s : State) : Host.Outcome State Fault Refusal :=
  .next ((s.advance.setIndex (BitVec.ofNat 16 (s.indexSum x))).setFlagIfIndexOver (s.indexSum x))

/-- `Fx29` (R112). -/
def execLdF (x : Reg) (s : State) : Host.Outcome State Fault Refusal :=
  .next (s.advance.setIndex (s.glyphAddress x))

/-- `Fx33` (R113). -/
def execLdB (x : Reg) (s : State) : Host.Outcome State Fault Refusal :=
  match s.advance.store s.indexBase (decimalDigits (s.reg x)) with
  | some t => .next t
  | none => .next (s.raise .addressOutOfRange (encode (.ldB x)))

/-- `Fx55` (R114). -/
def execStRegs (x : Reg) (s : State) : Host.Outcome State Fault Refusal :=
  match s.advance.store s.indexBase (s.regRun x) with
  | some t => .next t
  | none => .next (s.raise .addressOutOfRange (encode (.stRegs x)))

/-- `Fx65` (R115). -/
def execLdRegs (x : Reg) (s : State) : Host.Outcome State Fault Refusal :=
  match s.load s.indexBase (x.val + 1) with
  | some bytes => .next (s.advance.setRegsFrom 0 bytes)
  | none => .next (s.raise .addressOutOfRange (encode (.ldRegs x)))

end Sys2Proof.Machine
end

