-- ==== Sys2Proof/Machine/Input.lean ====
section
/-! DEFINITION. Random, keypad and timers: Cxnn, Ex9E, ExA1, Fx07, Fx0A, Fx15, Fx18 (44_key_timer_random.md).
`key` and `rnd` are the inputs sampled for the current STEP (00_scope.md R5). -/

namespace Sys2Proof.Machine

/-- `Cxnn` (R140). -/
def execRndImm (x : Reg) (nn : Byte) (s : State) : Host.Outcome State Fault Refusal :=
  .next (s.advance.setReg x (s.maskedRandom nn))

/-- `Ex9E` (R141). -/
def execSkp (x : Reg) (s : State) : Host.Outcome State Fault Refusal :=
  .next (s.advance.skipIf (s.keyMatches x))

/-- `ExA1` (R142). -/
def execSknp (x : Reg) (s : State) : Host.Outcome State Fault Refusal :=
  .next (s.advance.skipIf (!s.keyMatches x))

/-- `Fx07` (R143). -/
def execLdVxDt (x : Reg) (s : State) : Host.Outcome State Fault Refusal :=
  .next (s.advance.setReg x s.dt)

/-- `Fx0A` (R144): with no key, PC goes back by 2 and the next step runs the same instruction again. -/
def execLdVxK (x : Reg) (s : State) : Host.Outcome State Fault Refusal :=
  .next (match s.env.key with
    | some k => s.advance.setReg x (BitVec.ofNat 8 k.val)
    | none => s.advance.setPc (s.advance.pc - 2))

/-- `Fx15` (R145). -/
def execLdDtVx (x : Reg) (s : State) : Host.Outcome State Fault Refusal :=
  .next { s.advance with dt := s.reg x }

/-- `Fx18` (R146): the write itself emits no tone. -/
def execLdStVx (x : Reg) (s : State) : Host.Outcome State Fault Refusal :=
  .next { s.advance with st := s.reg x }

end Sys2Proof.Machine
end

