-- ==== Sys2Proof/Machine/Cycle.lean ====
section
/-! DEFINITION. One event of the block: the step cycle of 30_encoding.md R53, the TICK, the RESET, and the
order in which they come (00_scope.md R5, R7; 60_exceptions.md R173). -/

namespace Sys2Proof.Machine

/-- The step cycle of a block that is not halted, its inputs sampled: fetch, decode, execute, each phase able
to raise its fatal condition and the earlier phase first (30_encoding.md R53; 60_exceptions.md R165). -/
def interpret (s : State) : Host.Outcome State Fault Refusal :=
  match s.fetch with
  | none => .next (s.raise .addressOutOfRange 0)
  | some w =>
    match decodeWord w with
    | .error _ => .next (s.raise .invalidInstruction w)
    | .ok i => exec i s

/-- One event (00_scope.md R5). A STEP of a halted block does nothing (60_exceptions.md R168); a RESET whose
image does not fit has no meaning (70_reset_and_hazards.md R191). -/
def perform (e : Event) (s : State) : Host.Outcome State Fault Refusal :=
  match e with
  | .step key rnd => if s.halted then .next s else interpret (s.sample key rnd)
  | .tick => .next s.tick
  | .reset program =>
    if s.cfg.imageFits program then .next (s.launch program) else .refused .imageTooLong

/-- The next event of the schedule. -/
def nextEvent (s : State) : Host.Outcome State Fault Refusal := perform s.upcoming s.takeUpcoming

/-- An event that is not a STEP. -/
def Event.notStep : Event → Bool
  | .step _ _ => false
  | .tick => true
  | .reset _ => true

/-- The state with an instruction placed where the next STEP fetches, and the next event made that STEP
(log 26): PC stays unless no instruction can be fetched there, a halted block is running again, and events
that come before the next STEP are dropped, a TICK of the free schedule included. -/
def State.placeBytes (s : State) (bytes : List Byte) : State :=
  let pc : Word := if s.pc.toNat + 2 ≤ memSize then s.pc else BitVec.ofNat 16 s.cfg.loadBase
  let events := s.env.events.dropWhile Event.notStep
  { s.storeBytes pc.toNat bytes with
    pc := pc
    halted := false
    env := { s.env with
      events := events
      stepsToTick := if events.isEmpty then max 1 s.env.stepsToTick else s.env.stepsToTick } }

end Sys2Proof.Machine
end

