-- ==== Sys2Proof/Machine/Step.lean ====
section
/-! DEFINITION. The step function of the machine: one event (Machine/Cycle.lean). -/

namespace Sys2Proof.Machine

/-- One step: the next event of the block (00_scope.md R5). -/
def step (s : State) : Host.Outcome State Fault Refusal := nextEvent s

/-- `s` with the instruction whose bits are `w` stored where `step` fetches its next instruction, the bits
above `nbits` zero. -/
def State.withFetchWord (s : State) (nbits w : Nat) : State := s.placeBytes (tableBytes nbits w)

end Sys2Proof.Machine
end

