-- ==== Sys2Proof/Machine/Ports.lean ====
section
/-! DEFINITION. The block's boundary as ports (00_scope.md R6, decision D25): what the host can read of a
state, and the events its input ports stand for. The clocked handshakes (`clk`, `rst`, `step_req`,
`step_done`, the tick prescaler) carry no rule beyond the events and are left out (log 22). -/

namespace Sys2Proof.Machine

/-- The outputs `halted`, `fault_code[2:0]`, `fault_instr[15:0]`, `fault_pc[15:0]` (R6; 10_state.md R22). -/
structure FaultReport where
  halted     : Bool
  faultCode  : BitVec 3
  faultInstr : Word
  faultPc    : Word
deriving DecidableEq, Repr

/-- The fault report (00_scope.md R5 (5); 60_exceptions.md R182). -/
def State.faultReport (s : State) : FaultReport where
  halted     := s.halted
  faultCode  := s.faultCode
  faultInstr := s.faultInstr
  faultPc    := s.faultPc

/-- FB_READ: the pixel of row `r` and column `c`, read-only (43_display.md R135). -/
def State.fbRead (s : State) (r : Fin 32) (c : Fin 64) : Bool := s.fb.pixel r c

/-- `fb_rdata` for `fb_raddr[10:0] = row*64 + col` (00_scope.md R6; 10_state.md R19). -/
def State.fbRdata (s : State) (addr : BitVec 11) : Bool :=
  s.fbRead (rowIndex (addr.toNat / 64)) (colIndex addr.toNat)

/-- The key input from `key_valid` and `key_code[3:0]`; `key_valid = 0` is "no key" (00_scope.md R6). -/
def keyOfPorts (keyValid : Bool) (keyCode : BitVec 4) : Option Key :=
  if keyValid then some keyCode.toFin else none

/-- The STEP that a `step_req` with these input ports asks for. -/
def stepOfPorts (keyValid : Bool) (keyCode : BitVec 4) (rnd : Byte) : Event :=
  .step (keyOfPorts keyValid keyCode) rnd

/-- Whether the event between two states pulses `tone` (60_exceptions.md R175). -/
def toneBetween (before after : State) : Bool := before.env.tones < after.env.tones

/-- The faulting address that the host recomputes from `FAULT_PC`, `FAULT_INSTR` and I, the lowest address
of the access outside memory (20_memory.md R35; 60_exceptions.md R163). A fetch fault has no instruction
word. -/
def State.faultAddress (s : State) : Option Nat :=
  if s.halted && s.faultCode == Fault.addressOutOfRange.code then
    some (max (if s.faultInstr = 0 then s.faultPc.toNat else s.i.toNat) memSize)
  else none

end Sys2Proof.Machine
end

