-- ==== Sys2Proof/Safety.lean ====
section
/-! DEFINITION. The terms claims use: the invariant of the machine, what two states have in common (frames), safe
states, the end of a run, and the bits of a sprite. -/

namespace Sys2Proof.Machine

/-! ## The invariant -/

/-- The fault record is blank while the block runs, and holds one of the four codes and the address of the
faulting instruction, which is where PC stays, once it has halted (10_state.md R21, R22; 60_exceptions.md
R166 to R168). -/
structure State.recordOk (s : State) : Prop where
  running : s.halted = false → s.faultCode = 0 ∧ s.faultInstr = 0 ∧ s.faultPc = 0
  stopped : s.halted = true → 1 ≤ s.faultCode.toNat ∧ s.faultCode.toNat ≤ 4 ∧ s.faultPc = s.pc

/-- The machine's invariant: parameters within the constraints of 00_scope.md R4, memory in canonical form,
PC and the saved return addresses within the bounds of 10_state.md R15, no more return addresses than
`STACK_DEPTH`, and a consistent fault record. -/
structure State.Inv (s : State) : Prop where
  cfg     : s.cfg.wellFormed = true
  mem     : Memory.wf s.cfg s.mem
  pc      : s.pc.toNat ≤ 0x10FE
  returns : ∀ w ∈ s.stack, w.toNat ≤ memSize
  depth   : ∀ d, s.cfg.stackDepth = some d → s.stack.length ≤ d
  record  : s.recordOk

/-! ## Frames -/

/-- Every register outside `ws` is unchanged. -/
def keepsRegs (ws : List Reg) (s t : State) : Prop := ∀ r, r ∉ ws → t.reg r = s.reg r

/-- I is unchanged. -/
def keepsIndex (s t : State) : Prop := t.i = s.i

/-- The call stack is unchanged. -/
def keepsStack (s t : State) : Prop := t.stack = s.stack

/-- Both timers are unchanged. -/
def keepsTimers (s t : State) : Prop := t.dt = s.dt ∧ t.st = s.st

/-- Every pixel is unchanged. -/
def keepsScreen (s t : State) : Prop := ∀ r c, t.fb.pixel r c = s.fb.pixel r c

/-- Every byte of memory outside `base .. base + len - 1` is unchanged. -/
def keepsMemoryOutside (base len : Nat) (s t : State) : Prop :=
  ∀ a, a < base ∨ base + len ≤ a → t.readByte a = s.readByte a

/-- Every byte of memory is unchanged. -/
def keepsMemory (s t : State) : Prop := ∀ a, t.readByte a = s.readByte a

/-- The halt flag and the fault record are unchanged: no fatal condition was raised. -/
def keepsRecord (s t : State) : Prop := t.faultReport = s.faultReport

/-- The parameters, the events to come, the sampled inputs and the tones emitted so far are unchanged. -/
def keepsEnv (s t : State) : Prop := t.cfg = s.cfg ∧ t.env = s.env

/-- Everything but the general registers and PC is unchanged. -/
structure KeepsAllButRegs (s t : State) : Prop where
  index  : keepsIndex s t
  stack  : keepsStack s t
  timers : keepsTimers s t
  screen : keepsScreen s t
  memory : keepsMemory s t
  record : keepsRecord s t
  env    : keepsEnv s t

/-- `t` is `s` halted with this code, instruction word and `PC_instr`: HALTED and the fault record as the
halt entry of 60_exceptions.md R166 leaves them, and nothing else changed. -/
def HaltsWith (code : BitVec 3) (w : Word) (s t : State) : Prop :=
  t = { s with halted := true, faultCode := code, faultInstr := w, faultPc := s.pc }

/-! ## Runs -/

/-- A safe state: no fatal condition has been raised (60_exceptions.md R168, "a halted state is a fault
state"). -/
def State.safe (s : State) : Bool := !s.halted

/-- An endless run: the states of the block under a schedule that never ends, one event after another. -/
def EndlessRun (r : Nat → State) : Prop := ∀ n, step (r n) = .next (r (n + 1))

/-- Weak fairness of the timer agent along a run (60_exceptions.md R174, decision D29, log 25): from every
point on a TICK comes. The timer clock is never disabled, by a halt neither (R168), so nothing weaker will
do. -/
def WeaklyFair (r : Nat → State) : Prop := ∀ n, ∃ m, n ≤ m ∧ (r m).upcoming = .tick

/-- The end of a run, the spec's convention for claims about programs (70_reset_and_hazards.md R194, decision
D27, log 24): PC rests on a `1nnn` that jumps to itself. -/
def State.atSelfJump (s : State) : Bool :=
  s.safe && (s.fetch == some (encode (.jp (s.pc.setWidth 12))))

/-! ## Sprites -/

/-- A sprite bit `k` of row `row` is set: bit `7-k` of the byte at `I + row` (43_display.md R131, R132). -/
def State.spriteBit (s : State) (row k : Nat) : Bool := (s.readByte (s.i.toNat + row)).getLsbD (7 - k)

end Sys2Proof.Machine
end

