-- ==== Sys2Proof/Certificates/Slice0/Obligations.lean ====
section
/-! DEFINITION. The statements for the provers, from the numbered rules of the spec. Words of instructions are
written as in the opcode map of 30_encoding.md R54: `ofNibbles op x y n`, `ofNibblesByte op x nn`,
`ofNibbleAddr op nnn`. -/

open Sys2Proof Sys2Proof.Machine

/-! ## Encoding (30_encoding.md) -/

/-- Decoding the word of a well-formed instruction gives it back with every operand, and a word that decodes
is the word of what it decodes to: each instruction has exactly one word (sections 1 and 3 of 30_encoding.md).
That a shift keeps its ignored field y as an operand is the model's choice (log 29). -/
def Obligations.DecodeAndEncodeAreInverse : Prop :=
  (∀ i : Instr, i.wellFormed = true ∧ decodeWord (encode i) = .ok i) ∧
  (∀ (w : Word) (i : Instr), decodeWord w = .ok i → encode i = w)

/-- The opcode map has 34 rows, no word matches two of them, and the decoder is total: a word that matches a
row decodes to an instruction of a row it matches, any other is InvalidInstruction and carries the word
(sections 3, 4 and 5 of 30_encoding.md; that literal digits must match is the spec's decision D19, log 20). -/
def Obligations.DecoderFollowsOpcodeMap : Prop :=
  opcodeTable.length = 34 ∧
  opcodeTable.Pairwise (fun p q => ∀ w, ¬ (p.selects w = true ∧ q.selects w = true)) ∧
  ∀ w : Word,
    (∀ i, decodeWord w = .ok i → i.row ∈ opcodeTable ∧ i.row.selects w = true) ∧
    ((∃ r ∈ opcodeTable, r.selects w = true) → ∃ i, decodeWord w = .ok i) ∧
    ((∀ r ∈ opcodeTable, r.selects w = false) → decodeWord w = .error (.invalidInstruction w))

/-- The invalid encodings, family by family, and no other word is invalid (section 4 of 30_encoding.md; the
literal digits are the spec's decision D19, log 20). -/
def Obligations.InvalidEncodingsAreTheListedOnes : Prop :=
  ∀ w : Word, decodeWord w = .error (.invalidInstruction w) ↔
    ((opField w = 0x0 ∧ w ≠ 0x00E0 ∧ w ≠ 0x00EE) ∨
     ((opField w = 0x5 ∨ opField w = 0x9) ∧ nField w ≠ 0) ∨
     (opField w = 0x8 ∧ (nField w).val ∈ [0x8, 0x9, 0xA, 0xB, 0xC, 0xD, 0xF]) ∨
     (opField w = 0xE ∧ nnField w ≠ 0x9E ∧ nnField w ≠ 0xA1) ∨
     (opField w = 0xF ∧ nnField w ∉ [0x07, 0x0A, 0x15, 0x18, 0x1E, 0x29, 0x33, 0x55, 0x65]))

/-- One word of every family (the first digit of the opcode map, 0 to F, both instructions of family 0) and so of
every format, written out bit by bit from its pattern, and the bytes of one of them in memory order (sections 1
and 3 of 30_encoding.md). -/
def Obligations.WrittenOutWordsDecode : Prop :=
  decodeWord 0b0000000011100000 = .ok .cls ∧
  decodeWord 0b0000000011101110 = .ok .ret ∧
  decodeWord 0b0001001000000100 = .ok (.jp 0x204) ∧
  decodeWord 0b0010001000001010 = .ok (.call 0x20A) ∧
  decodeWord 0b0011011010100101 = .ok (.seImm 6 0xA5) ∧
  decodeWord 0b0100000100000101 = .ok (.sneImm 1 0x05) ∧
  decodeWord 0b0101001000110000 = .ok (.seReg 2 3) ∧
  decodeWord 0b0110000000000101 = .ok (.ldImm 0 0x05) ∧
  decodeWord 0b0111000100000010 = .ok (.addImm 1 0x02) ∧
  decodeWord 0b1000101010110100 = .ok (.addReg 10 11) ∧
  decodeWord 0b1001001000110000 = .ok (.sneReg 2 3) ∧
  decodeWord 0b1010001000101010 = .ok (.ldI 0x22A) ∧
  decodeWord 0b1011001100000000 = .ok (.jpV0 0x300) ∧
  decodeWord 0b1100000100001111 = .ok (.rndImm 1 0x0F) ∧
  decodeWord 0b1101000000010010 = .ok (.drw 0 1 2) ∧
  decodeWord 0b1110010110011110 = .ok (.skp 5) ∧
  decodeWord 0b1111001001100101 = .ok (.ldRegs 2) ∧
  decode [0xA2, 0x2A] = .ok (.ldI 0x22A, [])

/-! ## The step cycle (30_encoding.md section 2) -/

/-- The word that the fetch reads: the byte at PC is the most significant one (20_memory.md R32). -/
def Obligations.FetchIsBigEndian : Prop :=
  ∀ s : State, s.pc.toNat + 2 ≤ 4096 → ∃ w, s.fetch = some w ∧
    w.toNat = 256 * (s.readByte s.pc.toNat).toNat + (s.readByte (s.pc.toNat + 1)).toNat

/-- A step of a block that is not halted runs the instruction its two bytes decode to, with the inputs of its
STEP event; odd addresses are no exception (20_memory.md section 2). That a step of the model takes its event
from a list, and with no event listed, where the free schedule comes to a STEP, its inputs from the free values
of `Config`, is the model's choice (logs 1 and 2). -/
def Obligations.StepRunsDecodedInstruction : Prop :=
  ∀ (s : State) (i : Instr),
    s.halted = false → s.pc.toNat + 2 ≤ 4096 →
    decode [s.readByte s.pc.toNat, s.readByte (s.pc.toNat + 1)] = .ok (i, []) →
    (∀ key rnd es, s.env.events = .step key rnd :: es →
      step s = exec i { s with env := { s.env with events := es, key := key, rnd := rnd } }) ∧
    (∀ k, s.env.events = [] → s.env.stepsToTick = k + 1 →
      step s = exec i { s with env := { s.env with
        key := Config.freeKey s.env.draws, rnd := Config.freeRnd s.env.draws, draws := s.env.draws + 1,
        stepsToTick := k } })

/-- A step whose fetch reaches outside memory halts with code 3, instruction word 0 and its PC, which stays, and
changes nothing else, whether its STEP comes from the event list or from the free schedule (the spec's decisions
D5, D12 and D16, logs 10, 13 and 14; where a STEP comes from is the model's choice, logs 1 and 2). -/
def Obligations.FetchOutsideMemoryHalts : Prop :=
  ∀ (s : State) (key : Option Key) (rnd : Byte),
    s.halted = false → s.upcoming = .step key rnd → 4094 < s.pc.toNat →
    ∃ t, step s = .next t ∧ HaltsWith 3 0 (s.takeUpcoming.sample key rnd) t

/-- A step whose word matches no pattern halts with code 1, the raw word and its PC, which stays, and no register,
memory byte, pixel, timer or stack entry changes, whether its STEP comes from the event list or from the free
schedule (60_exceptions.md section 1; code, record and the PC kept are the spec's decisions D12 and D16, logs 13
and 14; where a STEP comes from is the model's choice, logs 1 and 2). -/
def Obligations.InvalidInstructionHalts : Prop :=
  ∀ (s : State) (key : Option Key) (rnd : Byte) (w : Word),
    s.halted = false → s.upcoming = .step key rnd → s.pc.toNat + 2 ≤ 4096 →
    s.fetch = some w → decodeWord w = .error (.invalidInstruction w) →
    ∃ t, step s = .next t ∧ HaltsWith 1 w (s.takeUpcoming.sample key rnd) t

/-- Faults are precise: when a step of a running block halts it, everything but HALTED, the fault record and
the model's own inputs is as before the step, PC included; the record holds a code from 1 to 4 and the PC of
the step, and no tone is emitted (that nothing else changes is the spec's decision D16, log 14; the halt bit, the
codes and the record's fields are D12 and D14, log 13). -/
def Obligations.FaultsArePrecise : Prop :=
  ∀ s t : State, s.halted = false → step s = .next t → t.halted = true →
    HaltsWith t.faultCode t.faultInstr { s with env := t.env } t ∧
    1 ≤ t.faultCode.toNat ∧ t.faultCode.toNat ≤ 4 ∧ t.env.tones = s.env.tones

/-- A halted block: only RESET gets it out; an event that is no TICK changes nothing, a TICK changes the timers
only, and the fault record keeps the first condition (the spec's decisions D12, D14 and D15, log 13). -/
def Obligations.HaltedBlockLeavesOnlyByReset : Prop :=
  ∀ s t : State, s.halted = true → step s = .next t →
    (∃ program es, s.env.events = .reset program :: es) ∨
    (t = { s with dt := t.dt, st := t.st, env := t.env } ∧
      (s.upcoming ≠ .tick → t.dt = s.dt ∧ t.st = s.st ∧ t.env.tones = s.env.tones))

/-- Every instruction answers a next state in every state, a fatal condition being taken in a next state (the
model's choice, log 13); so does every step but a RESET whose image does not fit above LOAD_BASE, and such a
RESET is refused by name, in every state (60_exceptions.md section 1; the refusal is the spec's decision D9,
log 15). -/
def Obligations.OnlyALaunchThatDoesNotFitIsRefused : Prop :=
  (∀ (i : Instr) (s : State), ∃ t, exec i s = .next t) ∧
  (∀ s : State,
    (∀ program es, s.env.events = .reset program :: es → s.cfg.loadBase + program.length ≤ 4096) →
    ∃ t, step s = .next t) ∧
  ∀ (s : State) (program : List Byte) (es : List Event),
    s.env.events = .reset program :: es → 4096 < s.cfg.loadBase + program.length →
    step s = .refused .imageTooLong

/-! ## Timers (60_exceptions.md section 4) -/

/-- TICK: each timer above zero goes down by one, a timer at zero stays, a tone is emitted exactly when ST was
above zero (the tones are counted, log 17), and no other state changes; it does so whether the block runs or is
halted (the spec's decision D15, log 13). A TICK comes from the list or, with nothing listed, from the free
schedule (logs 1 and 25). -/
def Obligations.TickCountsDownBothTimers : Prop :=
  ∀ s : State,
    (∀ es, s.env.events = .tick :: es →
      ∃ t, step s = .next t ∧
        t.dt.toNat = s.dt.toNat - 1 ∧ t.st.toNat = s.st.toNat - 1 ∧
        t.env = { s.env with events := es, tones := if s.st = 0 then s.env.tones else s.env.tones + 1 } ∧
        t = { s with dt := t.dt, st := t.st, env := t.env }) ∧
    (s.env.events = [] → s.env.stepsToTick = 0 →
      ∃ t, step s = .next t ∧
        t.dt.toNat = s.dt.toNat - 1 ∧ t.st.toNat = s.st.toNat - 1 ∧
        t.env = { s.env with
          stepsToTick := Config.freeGap s.env.ticksDrawn, ticksDrawn := s.env.ticksDrawn + 1,
          tones := if s.st = 0 then s.env.tones else s.env.tones + 1 } ∧
        t = { s with dt := t.dt, st := t.st, env := t.env })

/-- `k` listed ticks with nothing between them: DT and ST are `k` lower, clamped at zero, and one tone has been
emitted for each unit ST went down (60_exceptions.md section 4). -/
def Obligations.TimersReachZeroAfterTheirCount : Prop :=
  ∀ (k : Nat) (s : State) (es : List Event), s.env.events = List.replicate k .tick ++ es →
    ∃ t, Host.Core.run Sys2Proof.core k s = .next t ∧
      t.dt.toNat = s.dt.toNat - k ∧ t.st.toNat = s.st.toNat - k ∧
      t.env = { s.env with events := es, tones := s.env.tones + min k s.st.toNat } ∧
      t = { s with dt := t.dt, st := t.st, env := t.env }

/-- Only Fx07, Fx15 and Fx18 can tell on which side of a TICK they run: for every other instruction the two
orders give the same state (60_exceptions.md section 4; the atomic TICK is the spec's decision D21,
log 18). -/
def Obligations.TickCommutesWithOtherInstructions : Prop :=
  ∀ (i : Instr) (s t : State),
    (∀ x, i ≠ .ldVxDt x) → (∀ x, i ≠ .ldDtVx x) → (∀ x, i ≠ .ldStVx x) →
    exec i s = .next t → exec i s.tick = .next t.tick

/-! ## Reset (70_reset_and_hazards.md section 1) -/

/-- RESET with an image that fits, from any state, halted or not: registers, I, timers, pixels, stack, halt flag
and fault record zero or empty, PC at LOAD_BASE, memory the program over the font over MEM_FILL, no tone
(I, timers, pixels, stack, halt flag and record: the spec's decisions D6, D7, D12 and D14, log 9; an image that
fits: D9, log 15; MEM_FILL: D8, log 8; the model's own fields: log 27). -/
def Obligations.ResetEventInitialisesEverything : Prop :=
  ∀ (s : State) (program : List Byte) (es : List Event),
    s.env.events = .reset program :: es → s.cfg.wellFormed = true →
    s.cfg.loadBase + program.length ≤ 4096 →
    ∃ t, step s = .next t ∧
      (∀ r, t.reg r = 0) ∧ t.i = 0 ∧ t.pc.toNat = s.cfg.loadBase ∧ t.stack = [] ∧ t.dt = 0 ∧ t.st = 0 ∧
      (∀ r c, t.fb.pixel r c = false) ∧
      t.halted = false ∧ t.faultCode = 0 ∧ t.faultInstr = 0 ∧ t.faultPc = 0 ∧
      (∀ j, (h : j < program.length) → t.readByte (s.cfg.loadBase + j) = program[j]) ∧
      (∀ a, a < s.cfg.loadBase ∨ s.cfg.loadBase + program.length ≤ a →
        (∀ j : Fin 80, a = s.cfg.fontBase + j.val → t.readByte a = s.cfg.fontData.get j) ∧
        (a < s.cfg.fontBase ∨ s.cfg.fontBase + 80 ≤ a →
          t.readByte a = (Memory.find s.cfg.memFill a).getD 0)) ∧
      t.cfg = s.cfg ∧ t.env = { s.env with events := es }

/-- The state after reset with the empty image and the default parameters: what every register, pixel and
byte of memory holds (10_state.md section 9; the values of LOAD_BASE, FONT_BASE, FONT_DATA and MEM_FILL are
the defaults of logs 4, 5, 6 and 8, those of I, the timers, the stack, the framebuffer, the halt flag and the
fault record the spec's decisions D6, D7, D12 and D14, log 9). -/
def Obligations.ResetStateHoldsTheResetValues : Prop :=
  (∀ r, State.reset.reg r = 0) ∧ State.reset.i = 0 ∧ State.reset.pc = 0x200 ∧ State.reset.stack = [] ∧
  State.reset.dt = 0 ∧ State.reset.st = 0 ∧ (∀ r c, State.reset.fb.pixel r c = false) ∧
  State.reset.halted = false ∧ State.reset.faultCode = 0 ∧ State.reset.faultInstr = 0 ∧
  State.reset.faultPc = 0 ∧
  (∀ j : Fin 80, State.reset.readByte j.val = defaultFontData.get j) ∧
  (∀ a, 80 ≤ a → State.reset.readByte a = 0)

/-! ## The invariant -/

/-- The invariant holds right after reset (10_state.md section 9). It rests on the default parameters, which meet
the constraints of 00_scope.md section 3 (FONT_BASE and LOAD_BASE are PRESUMED, logs 4 and 5; STACK_DEPTH: the
spec's decision D4, log 7), on the reset values of stack, halt flag and fault record (D7, D12 and D14, log 9), and
on memory listing nothing, which is in canonical form (the model's representation, log 19). -/
def Obligations.InvariantHoldsAtReset : Prop := State.reset.Inv

/-- Every step keeps the invariant: the parameters stay legal, memory keeps its canonical form, PC stays at
or below 0x10FE and every return address at or below 4096 (so the 16-bit wrap is unreachable), the stack stays
within `STACK_DEPTH`, and the fault record stays consistent (10_state.md sections 2, 3 and 7). Choices it rests
on: PC kept on a fault, so that a halted block has `FAULT_PC = PC` (the spec's decision D16, log 14), the codes 1
to 4, the halt bit and a halted block that stays as it is (D12, D14 and D15, log 13), addresses that fault and
never wrap (D5, log 10), the bound STACK_DEPTH (D4, logs 7 and 23), RESET with an image that fits and what it
leaves (D7 and D9, logs 9 and 15), and, the model's own, the canonical form of memory (log 19) and the parameters
held in the state (log 3). -/
def Obligations.StepKeepsInvariant : Prop :=
  ∀ s t : State, s.Inv → step s = .next t → t.Inv

/-! ## Whole-machine rules: who writes what, who reads what -/

/-- Which instructions can change memory, the framebuffer, the call stack, I and each timer; none changes the
parameters or the model's inputs and outputs (the writes column of the table of 10_state.md section 10). -/
def Obligations.OnlyTheTablesWritersWrite : Prop :=
  ∀ (i : Instr) (s t : State), exec i s = .next t →
    (¬ keepsMemory s t → (∃ x, i = .ldB x) ∨ (∃ x, i = .stRegs x)) ∧
    (¬ keepsScreen s t → i = .cls ∨ (∃ x y n, i = .drw x y n)) ∧
    (t.stack ≠ s.stack → i = .ret ∨ (∃ nnn, i = .call nnn)) ∧
    (t.i ≠ s.i → (∃ nnn, i = .ldI nnn) ∨ (∃ x, i = .addI x) ∨ (∃ x, i = .ldF x)) ∧
    (t.dt ≠ s.dt → ∃ x, i = .ldDtVx x) ∧
    (t.st ≠ s.st → ∃ x, i = .ldStVx x) ∧
    keepsEnv s t

/-- VF changes only as the destination of the instruction, or as a flag written by 8xy4, 8xy5, 8xy6, 8xy7,
8xyE, Dxyn or Fx1E, and a flag is 0x00 or 0x01 (10_state.md section 1). -/
def Obligations.FlagRegisterWritersAreTheListedOnes : Prop :=
  ∀ (i : Instr) (s t : State), exec i s = .next t → t.reg VF ≠ s.reg VF →
    ((∃ nn, i = .ldImm VF nn) ∨ (∃ nn, i = .addImm VF nn) ∨ (∃ y, i = .ldReg VF y) ∨ (∃ y, i = .orReg VF y) ∨
     (∃ y, i = .andReg VF y) ∨ (∃ y, i = .xorReg VF y) ∨ (∃ y, i = .addReg VF y) ∨ (∃ y, i = .subReg VF y) ∨
     (∃ y, i = .subnReg VF y) ∨ (∃ nn, i = .rndImm VF nn) ∨ i = .ldVxDt VF ∨ i = .ldVxK VF ∨ i = .ldRegs VF) ∨
    (((∃ x y, i = .addReg x y) ∨ (∃ x y, i = .subReg x y) ∨ (∃ x y, i = .shr x y) ∨ (∃ x y, i = .subnReg x y) ∨
      (∃ x y, i = .shl x y) ∨ (∃ x y n, i = .drw x y n) ∨ (∃ x, i = .addI x)) ∧
     (t.reg VF = 0 ∨ t.reg VF = 1))

/-- An instruction that raises no fatal condition leaves PC at `PC_instr + 2`, except returns, jumps, calls,
skips and Fx0A with no key (10_state.md section 2). -/
def Obligations.ProgramCounterAfterEachInstruction : Prop :=
  ∀ (i : Instr) (s t : State), s.halted = false → exec i s = .next t → t.halted = false →
    t.pc = s.pc + 2 ∨
    (i = .ret ∧ s.stack.head? = some t.pc) ∨
    (∃ nnn, (i = .jp nnn ∨ i = .call nnn) ∧ t.pc.toNat = nnn.toNat) ∨
    (∃ nnn, i = .jpV0 nnn ∧ t.pc.toNat = nnn.toNat + (s.reg 0).toNat) ∨
    (t.pc = s.pc + 4 ∧ ((∃ x nn, i = .seImm x nn) ∨ (∃ x nn, i = .sneImm x nn) ∨ (∃ x y, i = .seReg x y) ∨
      (∃ x y, i = .sneReg x y) ∨ (∃ x, i = .skp x) ∨ (∃ x, i = .sknp x))) ∨
    (t.pc = s.pc ∧ (∃ x, i = .ldVxK x) ∧ s.env.key = none)

/-- No instruction reads ST: two states that differ in ST only stay so, and Fx18 makes them equal
(10_state.md sections 4 and 11). -/
def Obligations.NoInstructionReadsSoundTimer : Prop :=
  ∀ (i : Instr) (s t : State) (v : Byte), exec i s = .next t →
    ((∃ x, i = .ldStVx x) → exec i { s with st := v } = .next t) ∧
    ((∀ x, i ≠ .ldStVx x) → exec i { s with st := v } = .next { t with st := v })

/-- The key input is used by Ex9E, ExA1 and Fx0A only, the random byte by Cxnn only (60_exceptions.md
section 5). -/
def Obligations.InputsReachOnlyTheirInstructions : Prop :=
  ∀ (i : Instr) (s t : State), exec i s = .next t →
    (∀ key, (∀ x, i ≠ .skp x) → (∀ x, i ≠ .sknp x) → (∀ x, i ≠ .ldVxK x) →
      exec i { s with env := { s.env with key := key } } = .next { t with env := { t.env with key := key } }) ∧
    (∀ rnd, (∀ x nn, i ≠ .rndImm x nn) →
      exec i { s with env := { s.env with rnd := rnd } } = .next { t with env := { t.env with rnd := rnd } })

/-- A jump to itself ends a run: the step changes no state of the machine (70_reset_and_hazards.md section 2,
the spec's convention D27, log 24). -/
def Obligations.SelfJumpChangesNothing : Prop :=
  ∀ (s : State) (key : Option Key) (rnd : Byte),
    s.atSelfJump = true → s.upcoming = .step key rnd →
    ∃ t, step s = .next t ∧ t = { s with env := t.env } ∧ t.atSelfJump = true

/-! ## Memory -/

/-- Memories in canonical form that read the same at every address are the same list (the model's
representation, log 19). -/
def Obligations.CanonicalMemoryIsUnique : Prop :=
  ∀ (c : Config) (m m' : List Host.Cell), Memory.wf c m → Memory.wf c m' →
    (∀ a, Memory.read c m a = Memory.read c m' a) → m = m'

/-- A store by Fx55 or Fx33 is seen by the next fetch, with no instruction between: wherever PC then is, each of
the two bytes fetched is the one just stored if it lies in the bytes stored, and else the one that stood there
before, so also where only one of them was stored, PC before or at the end of the run (20_memory.md section 5;
the spec's decision D17, log 31). -/
def Obligations.StoreIsSeenByTheNextFetch : Prop :=
  ∀ (s : State) (x : Reg), Memory.wf s.cfg s.mem →
    (s.i.toNat + x.val < 4096 → ∃ t, exec (.stRegs x) s = .next t ∧
      ∀ u : State, u.cfg = t.cfg → u.mem = t.mem → u.pc.toNat + 2 ≤ 4096 →
        ∃ hi lo : Byte, u.fetch = some (hi ++ lo) ∧
          (∀ r : Reg, r.val ≤ x.val → u.pc.toNat = s.i.toNat + r.val → hi = s.reg r) ∧
          (∀ r : Reg, r.val ≤ x.val → u.pc.toNat + 1 = s.i.toNat + r.val → lo = s.reg r) ∧
          (u.pc.toNat < s.i.toNat ∨ s.i.toNat + x.val < u.pc.toNat → hi = s.readByte u.pc.toNat) ∧
          (u.pc.toNat + 1 < s.i.toNat ∨ s.i.toNat + x.val < u.pc.toNat + 1 →
            lo = s.readByte (u.pc.toNat + 1))) ∧
    (s.i.toNat + 2 < 4096 → ∃ t, exec (.ldB x) s = .next t ∧
      ∀ u : State, u.cfg = t.cfg → u.mem = t.mem → u.pc.toNat + 2 ≤ 4096 →
        ∃ hi lo : Byte, u.fetch = some (hi ++ lo) ∧
          (∀ d, d ≤ 2 → u.pc.toNat = s.i.toNat + d → hi.toNat = (s.reg x).toNat / 10 ^ (2 - d) % 10) ∧
          (∀ d, d ≤ 2 → u.pc.toNat + 1 = s.i.toNat + d → lo.toNat = (s.reg x).toNat / 10 ^ (2 - d) % 10) ∧
          (u.pc.toNat < s.i.toNat ∨ s.i.toNat + 2 < u.pc.toNat → hi = s.readByte u.pc.toNat) ∧
          (u.pc.toNat + 1 < s.i.toNat ∨ s.i.toNat + 2 < u.pc.toNat + 1 →
            lo = s.readByte (u.pc.toNat + 1)))

/-! ## Round trips -/

/-- Storing V0..Vx at I and loading them back from the same address, whatever the registers hold in between,
gives V0..Vx their values (42_index_memory.md, the round trip of Fx55 and Fx65; 95_test_vectors.md S5). -/
def Obligations.StoreThenLoadRestoresRegisters : Prop :=
  ∀ (s t u : State) (x : Reg), Memory.wf s.cfg s.mem → s.i.toNat + x.val < 4096 →
    exec (.stRegs x) s = .next t → u.cfg = t.cfg → u.mem = t.mem → u.i = t.i →
    ∃ w, exec (.ldRegs x) u = .next w ∧ (∀ r, r.val ≤ x.val → w.reg r = s.reg r) ∧
      (∀ r, x.val < r.val → w.reg r = u.reg r)

/-- A call and then a return, whatever happens in between but to the stack, comes back to the instruction
after the call with the stack as it was (40_control_flow.md; 95_test_vectors.md S4). The premise that the stack
is not full is for a finite STACK_DEPTH (the spec's decision D4, log 7). -/
def Obligations.CallThenReturnComesBack : Prop :=
  ∀ (s t u : State) (nnn : Addr12),
    (∀ d, s.cfg.stackDepth = some d → s.stack.length ≠ d) →
    exec (.call nnn) s = .next t → u.stack = t.stack →
    ∃ w, exec .ret u = .next w ∧ w.pc = s.pc + 2 ∧ w.stack = s.stack

/-- A second identical draw restores the framebuffer, and its VF says whether some sprite 1-bit landed on a
pixel that was 0 before the first draw (43_display.md, the properties of one draw, (b) and (c); with VF as a
coordinate the old VF counts, the spec's decision D10, log 11). -/
def Obligations.DrawingTwiceRestoresTheScreen : Prop :=
  ∀ (s t u : State) (x y : Reg) (n : Rows),
    n.val = 0 ∨ s.i.toNat + n.val ≤ 4096 →
    exec (.drw x y n) s = .next t →
    u.cfg = t.cfg → u.mem = t.mem → u.i = t.i → u.fb = t.fb → u.reg x = s.reg x → u.reg y = s.reg y →
    ∃ w, exec (.drw x y n) u = .next w ∧ w.fb = s.fb ∧
      (w.reg VF = 1 ∨ w.reg VF = 0) ∧
      (w.reg VF = 1 ↔ ∃ row k, row < n.val ∧ k < 8 ∧ s.spriteBit row k = true ∧
        s.fb.pixel (rowIndex ((s.reg y).toNat + row)) (colIndex ((s.reg x).toNat + k)) = false)

/-! ## Control transfer (40_control_flow.md) -/

/-- `1nnn`: PC is `nnn`, zero-extended, odd or even, and nothing else changes. -/
def Obligations.JumpSetsProgramCounter : Prop :=
  ∀ nnn : Addr12, decodeWord (ofNibbleAddr 0x1 nnn) = .ok (.jp nnn) ∧
    ∀ s : State, ∃ t, exec (.jp nnn) s = .next t ∧ t.pc.toNat = nnn.toNat ∧
      keepsRegs [] s t ∧ KeepsAllButRegs s t

/-- `Bnnn`: PC is `nnn + V0`, not reduced modulo 4096 (the spec's decision D5, log 10), and nothing else changes. -/
def Obligations.JumpPlusV0AddsWithoutMasking : Prop :=
  ∀ nnn : Addr12, decodeWord (ofNibbleAddr 0xB nnn) = .ok (.jpV0 nnn) ∧
    ∀ s : State, ∃ t, exec (.jpV0 nnn) s = .next t ∧ t.pc.toNat = nnn.toNat + (s.reg 0).toNat ∧
      keepsRegs [] s t ∧ KeepsAllButRegs s t

/-- `2nnn`: on a full stack it halts with code 4, pushes nothing and leaves PC where it was (the spec's decisions
D4, D12 and D16, logs 7, 13 and 14), else it pushes the address after the call and jumps. -/
def Obligations.CallPushesReturnAddress : Prop :=
  ∀ nnn : Addr12, decodeWord (ofNibbleAddr 0x2 nnn) = .ok (.call nnn) ∧
    ∀ s : State,
      (s.cfg.stackDepth = some s.stack.length →
        ∃ t, exec (.call nnn) s = .next t ∧ HaltsWith 4 (ofNibbleAddr 0x2 nnn) s t) ∧
      (s.cfg.stackDepth ≠ some s.stack.length →
        ∃ t, exec (.call nnn) s = .next t ∧ t.pc.toNat = nnn.toNat ∧ t.stack = (s.pc + 2) :: s.stack ∧
          keepsRegs [] s t ∧ keepsIndex s t ∧ keepsTimers s t ∧ keepsScreen s t ∧ keepsMemory s t ∧
          keepsRecord s t ∧ keepsEnv s t)

/-- `00EE`: on an empty stack it halts with code 2, pops nothing and leaves PC where it was (code, record and
everything kept are the spec's decisions D12 and D16, logs 13 and 14), else PC is the popped value, whatever it is. -/
def Obligations.ReturnPopsReturnAddress : Prop :=
  decodeWord 0x00EE = .ok .ret ∧
  ∀ s : State,
    (s.stack = [] → ∃ t, exec .ret s = .next t ∧ HaltsWith 2 0x00EE s t) ∧
    (∀ target rest, s.stack = target :: rest →
      ∃ t, exec .ret s = .next t ∧ t.pc = target ∧ t.stack = rest ∧
        keepsRegs [] s t ∧ keepsIndex s t ∧ keepsTimers s t ∧ keepsScreen s t ∧ keepsMemory s t ∧
        keepsRecord s t ∧ keepsEnv s t)

/-- `3xnn`, `4xnn`, `5xy0`, `9xy0`: PC advances by 4 when the condition holds and by 2 when not, and nothing
else changes. -/
def Obligations.SkipsCompareRegisters : Prop :=
  ∀ (x y : Reg) (nn : Byte),
    decodeWord (ofNibblesByte 0x3 (nibble x) nn) = .ok (.seImm x nn) ∧
    decodeWord (ofNibblesByte 0x4 (nibble x) nn) = .ok (.sneImm x nn) ∧
    decodeWord (ofNibbles 0x5 (nibble x) (nibble y) 0x0) = .ok (.seReg x y) ∧
    decodeWord (ofNibbles 0x9 (nibble x) (nibble y) 0x0) = .ok (.sneReg x y) ∧
    ∀ s : State,
      exec (.seImm x nn) s = .next { s with pc := if s.reg x = nn then s.pc + 4 else s.pc + 2 } ∧
      exec (.sneImm x nn) s = .next { s with pc := if s.reg x = nn then s.pc + 2 else s.pc + 4 } ∧
      exec (.seReg x y) s = .next { s with pc := if s.reg x = s.reg y then s.pc + 4 else s.pc + 2 } ∧
      exec (.sneReg x y) s = .next { s with pc := if s.reg x = s.reg y then s.pc + 2 else s.pc + 4 }

/-! ## Load and ALU (41_alu.md) -/

/-- `6xnn`, `7xnn`, `8xy0`: Vx gets the immediate, the truncated sum, or Vy; no flag is written, so VF changes
only as `x = F`. -/
def Obligations.LoadsAndAddImmediateWriteVx : Prop :=
  ∀ (x y : Reg) (nn : Byte),
    decodeWord (ofNibblesByte 0x6 (nibble x) nn) = .ok (.ldImm x nn) ∧
    decodeWord (ofNibblesByte 0x7 (nibble x) nn) = .ok (.addImm x nn) ∧
    decodeWord (ofNibbles 0x8 (nibble x) (nibble y) 0x0) = .ok (.ldReg x y) ∧
    ∀ s : State,
      (∃ t, exec (.ldImm x nn) s = .next t ∧ t.reg x = nn ∧ keepsRegs [x] s t ∧ t.pc = s.pc + 2 ∧
        KeepsAllButRegs s t) ∧
      (∃ t, exec (.addImm x nn) s = .next t ∧ (t.reg x).toNat = ((s.reg x).toNat + nn.toNat) % 256 ∧
        keepsRegs [x] s t ∧ t.pc = s.pc + 2 ∧ KeepsAllButRegs s t) ∧
      (∃ t, exec (.ldReg x y) s = .next t ∧ t.reg x = s.reg y ∧ keepsRegs [x] s t ∧ t.pc = s.pc + 2 ∧
        KeepsAllButRegs s t)

/-- `8xy1`, `8xy2`, `8xy3`: bit by bit, and VF is left unchanged unless it is Vx. -/
def Obligations.LogicInstructionsWorkBitByBit : Prop :=
  ∀ x y : Reg,
    decodeWord (ofNibbles 0x8 (nibble x) (nibble y) 0x1) = .ok (.orReg x y) ∧
    decodeWord (ofNibbles 0x8 (nibble x) (nibble y) 0x2) = .ok (.andReg x y) ∧
    decodeWord (ofNibbles 0x8 (nibble x) (nibble y) 0x3) = .ok (.xorReg x y) ∧
    ∀ s : State,
      (∃ t, exec (.orReg x y) s = .next t ∧
        (∀ k, (t.reg x).getLsbD k = ((s.reg x).getLsbD k || (s.reg y).getLsbD k)) ∧
        keepsRegs [x] s t ∧ t.pc = s.pc + 2 ∧ KeepsAllButRegs s t) ∧
      (∃ t, exec (.andReg x y) s = .next t ∧
        (∀ k, (t.reg x).getLsbD k = ((s.reg x).getLsbD k && (s.reg y).getLsbD k)) ∧
        keepsRegs [x] s t ∧ t.pc = s.pc + 2 ∧ KeepsAllButRegs s t) ∧
      (∃ t, exec (.xorReg x y) s = .next t ∧
        (∀ k, (t.reg x).getLsbD k = ((s.reg x).getLsbD k ^^ (s.reg y).getLsbD k)) ∧
        keepsRegs [x] s t ∧ t.pc = s.pc + 2 ∧ KeepsAllButRegs s t)

/-- `8xy4`: the sum modulo 256, and the carry in VF unless `x = F`, where the sum overwrites it. -/
def Obligations.AddSetsCarry : Prop :=
  ∀ x y : Reg, decodeWord (ofNibbles 0x8 (nibble x) (nibble y) 0x4) = .ok (.addReg x y) ∧
    ∀ s : State, ∃ t, exec (.addReg x y) s = .next t ∧
      (t.reg x).toNat = ((s.reg x).toNat + (s.reg y).toNat) % 256 ∧
      (x ≠ VF → t.reg VF = if 255 < (s.reg x).toNat + (s.reg y).toNat then 1 else 0) ∧
      keepsRegs [x, VF] s t ∧ t.pc = s.pc + 2 ∧ KeepsAllButRegs s t

/-- `8xy5`, `8xy7`: the difference modulo 256 of the old values, and in VF, unless `x = F`, whether the minuend
was strictly greater (with VF as an operand this is the spec's decision D10, log 11). -/
def Obligations.SubtractionsSetStrictNoBorrow : Prop :=
  ∀ x y : Reg,
    decodeWord (ofNibbles 0x8 (nibble x) (nibble y) 0x5) = .ok (.subReg x y) ∧
    decodeWord (ofNibbles 0x8 (nibble x) (nibble y) 0x7) = .ok (.subnReg x y) ∧
    ∀ s : State,
      (∃ t, exec (.subReg x y) s = .next t ∧
        ((t.reg x).toNat : Int) = ((s.reg x).toNat - (s.reg y).toNat : Int) % 256 ∧
        (x ≠ VF → t.reg VF = if (s.reg y).toNat < (s.reg x).toNat then 1 else 0) ∧
        keepsRegs [x, VF] s t ∧ t.pc = s.pc + 2 ∧ KeepsAllButRegs s t) ∧
      (∃ t, exec (.subnReg x y) s = .next t ∧
        ((t.reg x).toNat : Int) = ((s.reg y).toNat - (s.reg x).toNat : Int) % 256 ∧
        (x ≠ VF → t.reg VF = if (s.reg x).toNat < (s.reg y).toNat then 1 else 0) ∧
        keepsRegs [x, VF] s t ∧ t.pc = s.pc + 2 ∧ KeepsAllButRegs s t)

/-- `8xy6`, `8xyE`: Vx shifted by one in place, the bit shifted out in VF, which it is also for `x = F`; all
sixteen values of `y` do the same, and Vy is neither read nor written. -/
def Obligations.ShiftsMoveTheBitOutToFlag : Prop :=
  ∀ x y : Reg,
    decodeWord (ofNibbles 0x8 (nibble x) (nibble y) 0x6) = .ok (.shr x y) ∧
    decodeWord (ofNibbles 0x8 (nibble x) (nibble y) 0xE) = .ok (.shl x y) ∧
    ∀ s : State,
      (∃ t, exec (.shr x y) s = .next t ∧
        (x ≠ VF → (t.reg x).toNat = (s.reg x).toNat / 2) ∧ (t.reg VF).toNat = (s.reg x).toNat % 2 ∧
        keepsRegs [x, VF] s t ∧ t.pc = s.pc + 2 ∧ KeepsAllButRegs s t) ∧
      (∃ t, exec (.shl x y) s = .next t ∧
        (x ≠ VF → (t.reg x).toNat = 2 * (s.reg x).toNat % 256) ∧
        (t.reg VF).toNat = (s.reg x).toNat / 128 ∧
        keepsRegs [x, VF] s t ∧ t.pc = s.pc + 2 ∧ KeepsAllButRegs s t)

/-! ## Index register and memory (42_index_memory.md) -/

/-- `Annn`, `Fx29`: I gets the zero-extended immediate, or the address of the glyph that the low nibble of Vx
selects, for every legal FONT_BASE. -/
def Obligations.IndexLoadsSetIndex : Prop :=
  ∀ (nnn : Addr12) (x : Reg),
    decodeWord (ofNibbleAddr 0xA nnn) = .ok (.ldI nnn) ∧
    decodeWord (ofNibblesByte 0xF (nibble x) 0x29) = .ok (.ldF x) ∧
    ∀ s : State,
      (∃ t, exec (.ldI nnn) s = .next t ∧ t.i.toNat = nnn.toNat ∧ t.pc = s.pc + 2 ∧ keepsRegs [] s t ∧
        keepsStack s t ∧ keepsTimers s t ∧ keepsScreen s t ∧ keepsMemory s t ∧ keepsRecord s t ∧
        keepsEnv s t) ∧
      (s.cfg.wellFormed = true →
        ∃ t, exec (.ldF x) s = .next t ∧ t.i.toNat = s.cfg.fontBase + 5 * ((s.reg x).toNat % 16) ∧
          t.pc = s.pc + 2 ∧ keepsRegs [] s t ∧ keepsStack s t ∧ keepsTimers s t ∧ keepsScreen s t ∧
          keepsMemory s t ∧ keepsRecord s t ∧ keepsEnv s t)

/-- `Fx1E`: the sum modulo 65536 in I; VF is set to 1 when the untruncated sum is 4096 or more and otherwise
left, never cleared (the edges are the spec's decision D11, log 12). -/
def Obligations.AddToIndexSetsFlagAt4096 : Prop :=
  ∀ x : Reg, decodeWord (ofNibblesByte 0xF (nibble x) 0x1E) = .ok (.addI x) ∧
    ∀ s : State, ∃ t, exec (.addI x) s = .next t ∧
      t.i.toNat = (s.i.toNat + (s.reg x).toNat) % 65536 ∧
      t.reg VF = (if 4096 ≤ s.i.toNat + (s.reg x).toNat then 1 else s.reg VF) ∧
      keepsRegs [VF] s t ∧ t.pc = s.pc + 2 ∧ keepsStack s t ∧ keepsTimers s t ∧ keepsScreen s t ∧
      keepsMemory s t ∧ keepsRecord s t ∧ keepsEnv s t

/-- `Fx33`: the three decimal digits at I, I+1, I+2, I unchanged; with a byte of the range outside memory it
halts and writes none of them (bound check, code 3 and precision are the spec's decisions D5, D12 and D16, logs 10, 13
and 14). -/
def Obligations.StoreDecimalWritesThreeDigits : Prop :=
  ∀ x : Reg, decodeWord (ofNibblesByte 0xF (nibble x) 0x33) = .ok (.ldB x) ∧
    ∀ s : State,
      (4093 < s.i.toNat → ∃ t, exec (.ldB x) s = .next t ∧ HaltsWith 3 (ofNibblesByte 0xF (nibble x) 0x33) s t) ∧
      (s.i.toNat ≤ 4093 → Memory.wf s.cfg s.mem → ∃ t, exec (.ldB x) s = .next t ∧
        (t.readByte s.i.toNat).toNat = (s.reg x).toNat / 100 ∧
        (t.readByte (s.i.toNat + 1)).toNat = (s.reg x).toNat / 10 % 10 ∧
        (t.readByte (s.i.toNat + 2)).toNat = (s.reg x).toNat % 10 ∧
        keepsMemoryOutside s.i.toNat 3 s t ∧ keepsRegs [] s t ∧ t.pc = s.pc + 2 ∧ keepsIndex s t ∧
        keepsStack s t ∧ keepsTimers s t ∧ keepsScreen s t ∧ keepsRecord s t ∧ keepsEnv s t)

/-- `Fx55`: V0..Vx, inclusive, at I and up, I unchanged; with a byte of the range outside memory it halts and
writes none of them (bound check, code 3 and precision are the spec's decisions D5, D12 and D16, logs 10, 13
and 14). -/
def Obligations.StoreRegistersWritesTheRun : Prop :=
  ∀ x : Reg, decodeWord (ofNibblesByte 0xF (nibble x) 0x55) = .ok (.stRegs x) ∧
    ∀ s : State,
      (4095 < s.i.toNat + x.val →
        ∃ t, exec (.stRegs x) s = .next t ∧ HaltsWith 3 (ofNibblesByte 0xF (nibble x) 0x55) s t) ∧
      (s.i.toNat + x.val ≤ 4095 → Memory.wf s.cfg s.mem → ∃ t, exec (.stRegs x) s = .next t ∧
        (∀ r : Reg, r.val ≤ x.val → t.readByte (s.i.toNat + r.val) = s.reg r) ∧
        keepsMemoryOutside s.i.toNat (x.val + 1) s t ∧ keepsRegs [] s t ∧ t.pc = s.pc + 2 ∧ keepsIndex s t ∧
        keepsStack s t ∧ keepsTimers s t ∧ keepsScreen s t ∧ keepsRecord s t ∧ keepsEnv s t)

/-- `Fx65`: V0..Vx, inclusive, from I and up, VF as a register like any other, I unchanged; with a byte of the
range outside memory it halts and loads none of them (bound check, code 3 and precision are the spec's
decisions D5, D12 and D16, logs 10, 13 and 14). -/
def Obligations.LoadRegistersReadsTheRun : Prop :=
  ∀ x : Reg, decodeWord (ofNibblesByte 0xF (nibble x) 0x65) = .ok (.ldRegs x) ∧
    ∀ s : State,
      (4095 < s.i.toNat + x.val →
        ∃ t, exec (.ldRegs x) s = .next t ∧ HaltsWith 3 (ofNibblesByte 0xF (nibble x) 0x65) s t) ∧
      (s.i.toNat + x.val ≤ 4095 → ∃ t, exec (.ldRegs x) s = .next t ∧
        (∀ r : Reg, r.val ≤ x.val → t.reg r = s.readByte (s.i.toNat + r.val)) ∧
        (∀ r : Reg, x.val < r.val → t.reg r = s.reg r) ∧ t.pc = s.pc + 2 ∧ KeepsAllButRegs s t)

/-! ## Display (43_display.md) -/

/-- `00E0`: all 2048 pixels become 0, and nothing but PC changes; in particular VF does not. -/
def Obligations.ClearScreenClearsEveryPixel : Prop :=
  decodeWord 0x00E0 = .ok .cls ∧
  ∀ s : State, ∃ t, exec .cls s = .next t ∧ (∀ r c, t.fb.pixel r c = false) ∧ keepsRegs [] s t ∧
    t.pc = s.pc + 2 ∧ keepsIndex s t ∧ keepsStack s t ∧ keepsTimers s t ∧ keepsMemory s t ∧
    keepsRecord s t ∧ keepsEnv s t

/-- `Dxyn`: every pixel that a sprite 1-bit lands on is toggled, every other pixel is unchanged, and VF is 1
exactly when such a pixel was set before; coordinates are the old Vx and Vy, wrapped per pixel; with a sprite
byte outside memory it halts and draws nothing (old coordinates, bound check, code 3 and precision are the
spec's decisions D10, D5, D12 and D16, logs 11, 10, 13 and 14). -/
def Obligations.DrawTogglesExactlyTheSpritePixels : Prop :=
  ∀ (x y : Reg) (n : Rows),
    decodeWord (ofNibbles 0xD (nibble x) (nibble y) (nibble n)) = .ok (.drw x y n) ∧
    ∀ s : State,
      (n.val ≠ 0 → 4096 < s.i.toNat + n.val → ∃ t, exec (.drw x y n) s = .next t ∧
        HaltsWith 3 (ofNibbles 0xD (nibble x) (nibble y) (nibble n)) s t) ∧
      (n.val = 0 ∨ s.i.toNat + n.val ≤ 4096 → ∃ t, exec (.drw x y n) s = .next t ∧
        (∀ row k, row < n.val → k < 8 → s.spriteBit row k = true →
          t.fb.pixel (rowIndex ((s.reg y).toNat + row)) (colIndex ((s.reg x).toNat + k)) =
            !s.fb.pixel (rowIndex ((s.reg y).toNat + row)) (colIndex ((s.reg x).toNat + k))) ∧
        (∀ r c, (∀ row k, row < n.val → k < 8 → s.spriteBit row k = true →
            ¬ (r = rowIndex ((s.reg y).toNat + row) ∧ c = colIndex ((s.reg x).toNat + k))) →
          t.fb.pixel r c = s.fb.pixel r c) ∧
        (t.reg VF = 0 ∨ t.reg VF = 1) ∧
        (t.reg VF = 1 ↔ ∃ row k, row < n.val ∧ k < 8 ∧ s.spriteBit row k = true ∧
          s.fb.pixel (rowIndex ((s.reg y).toNat + row)) (colIndex ((s.reg x).toNat + k)) = true) ∧
        keepsRegs [VF] s t ∧ t.pc = s.pc + 2 ∧ keepsIndex s t ∧ keepsStack s t ∧ keepsTimers s t ∧
        keepsMemory s t ∧ keepsRecord s t ∧ keepsEnv s t)

/-- The read port addresses pixels row by row: `fb_raddr = row*64 + col` (00_scope.md section 4, the spec's
decision D25). -/
def Obligations.ReadPortIsRowMajor : Prop :=
  ∀ (s : State) (r : Fin 32) (c : Fin 64),
    s.fbRdata (BitVec.ofNat 11 (r.val * 64 + c.val)) = s.fb.pixel r c

/-! ## Random, keypad, timers (44_key_timer_random.md) -/

/-- `Cxnn`: Vx is the sampled random byte masked by `nn`, whatever the byte is. -/
def Obligations.RandomIsMasked : Prop :=
  ∀ (x : Reg) (nn : Byte), decodeWord (ofNibblesByte 0xC (nibble x) nn) = .ok (.rndImm x nn) ∧
    ∀ s : State, ∃ t, exec (.rndImm x nn) s = .next t ∧
      (∀ k, (t.reg x).getLsbD k = (s.env.rnd.getLsbD k && nn.getLsbD k)) ∧
      keepsRegs [x] s t ∧ t.pc = s.pc + 2 ∧ KeepsAllButRegs s t

/-- `Ex9E`, `ExA1`: the whole of Vx is compared with the sampled key; with no key the first never skips and
the second always does; nothing but PC changes. -/
def Obligations.KeySkipsCompareTheWholeRegister : Prop :=
  ∀ x : Reg,
    decodeWord (ofNibblesByte 0xE (nibble x) 0x9E) = .ok (.skp x) ∧
    decodeWord (ofNibblesByte 0xE (nibble x) 0xA1) = .ok (.sknp x) ∧
    ∀ s : State,
      (s.env.key = none →
        exec (.skp x) s = .next { s with pc := s.pc + 2 } ∧ exec (.sknp x) s = .next { s with pc := s.pc + 4 }) ∧
      (∀ key, s.env.key = some key →
        exec (.skp x) s = .next { s with pc := if key.val = (s.reg x).toNat then s.pc + 4 else s.pc + 2 } ∧
        exec (.sknp x) s = .next { s with pc := if key.val = (s.reg x).toNat then s.pc + 2 else s.pc + 4 })

/-- `Fx07`: Vx gets the value of DT, and nothing but Vx and PC changes. -/
def Obligations.ReadDelayTimerCopiesIt : Prop :=
  ∀ x : Reg, decodeWord (ofNibblesByte 0xF (nibble x) 0x07) = .ok (.ldVxDt x) ∧
    ∀ s : State, ∃ t, exec (.ldVxDt x) s = .next t ∧ t.reg x = s.dt ∧ keepsRegs [x] s t ∧
      t.pc = s.pc + 2 ∧ KeepsAllButRegs s t

/-- `Fx0A`: with a key, Vx gets it and PC goes on; without one nothing changes, so that the next step runs the
same instruction again. -/
def Obligations.WaitForKeyRepeatsUntilAKey : Prop :=
  ∀ x : Reg, decodeWord (ofNibblesByte 0xF (nibble x) 0x0A) = .ok (.ldVxK x) ∧
    ∀ s : State,
      (s.env.key = none → exec (.ldVxK x) s = .next s) ∧
      (∀ key, s.env.key = some key → ∃ t, exec (.ldVxK x) s = .next t ∧ (t.reg x).toNat = key.val ∧
        keepsRegs [x] s t ∧ t.pc = s.pc + 2 ∧ KeepsAllButRegs s t)

/-- `Fx15`, `Fx18`: the timer gets Vx and no tone is emitted; `k` ticks later it is `k` lower, clamped at
zero, and each of the first Vx ticks has emitted a tone for ST. -/
def Obligations.SetTimersThenCountDown : Prop :=
  ∀ x : Reg,
    decodeWord (ofNibblesByte 0xF (nibble x) 0x15) = .ok (.ldDtVx x) ∧
    decodeWord (ofNibblesByte 0xF (nibble x) 0x18) = .ok (.ldStVx x) ∧
    ∀ s : State,
      (∃ t, exec (.ldDtVx x) s = .next t ∧ t.dt = s.reg x ∧ t.st = s.st ∧
        (∀ k, (State.tick^[k] t).dt.toNat = (s.reg x).toNat - k) ∧
        keepsRegs [] s t ∧ t.pc = s.pc + 2 ∧ keepsIndex s t ∧ keepsStack s t ∧ keepsScreen s t ∧
        keepsMemory s t ∧ keepsRecord s t ∧ keepsEnv s t) ∧
      (∃ t, exec (.ldStVx x) s = .next t ∧ t.st = s.reg x ∧ t.dt = s.dt ∧
        (∀ k, (State.tick^[k] t).st.toNat = (s.reg x).toNat - k ∧
          (State.tick^[k] t).env.tones = s.env.tones + min k (s.reg x).toNat) ∧
        keepsRegs [] s t ∧ t.pc = s.pc + 2 ∧ keepsIndex s t ∧ keepsStack s t ∧ keepsScreen s t ∧
        keepsMemory s t ∧ keepsRecord s t ∧ keepsEnv s t)

/-! ## Progress of the timer clock (60_exceptions.md section 4) -/

/-- The timer clock is weakly fair: from every point of every endless run a TICK comes. And endless runs there
are, from every state with no event listed (the spec's decision D29; how the model's schedule goes on is logs 1
and 25). -/
def Obligations.EveryEndlessRunKeepsTicking : Prop :=
  (∀ r : Nat → State, EndlessRun r → WeaklyFair r) ∧
  ∀ s : State, s.env.events = [] → ∃ r, r 0 = s ∧ EndlessRun r

/-- A timer that is not rewritten reaches 0: if from some point of an endless run on only TICKs change DT, DT is 0
at some later point, and so for ST (the spec's decision D29, log 25). -/
def Obligations.TimersLeftAloneReachZero : Prop :=
  ∀ (r : Nat → State) (n : Nat), EndlessRun r →
    ((∀ m, n ≤ m → (r m).upcoming ≠ .tick → (r (m + 1)).dt = (r m).dt) → ∃ m, n ≤ m ∧ (r m).dt = 0) ∧
    ((∀ m, n ≤ m → (r m).upcoming ≠ .tick → (r (m + 1)).st = (r m).st) → ∃ m, n ≤ m ∧ (r m).st = 0)
end

