-- ==== Sys2Proof/Laws/Decode.lean ====
section
/-! SUPPORT. The fields of an instruction word and the words made of fields: each field of a written word is
what was written, and every word is made of its own fields. Both follow from the fields as digits of the
word's number. -/

namespace Sys2Proof

theorem toFin_nibble (x : Fin 16) : (nibble x).toFin = x := rfl

theorem nibble_toFin (x : Nibble) : nibble x.toFin = x := rfl

/-! ## Fields and words as numbers -/

theorem toNat_append_eq {m k : Nat} (a : BitVec m) (b : BitVec k) :
    (a ++ b).toNat = a.toNat * 2 ^ k + b.toNat := by
  rw [BitVec.toNat_append, ← Nat.shiftLeft_add_eq_or_of_lt b.isLt, Nat.shiftLeft_eq]

theorem toNat_ofNibbles (a b c d : Nibble) :
    (ofNibbles a b c d).toNat = a.toNat * 4096 + b.toNat * 256 + c.toNat * 16 + d.toNat := by
  rw [ofNibbles, toNat_append_eq, toNat_append_eq, toNat_append_eq]
  omega

theorem toNat_ofNibblesByte (a b : Nibble) (nn : Byte) :
    (ofNibblesByte a b nn).toNat = a.toNat * 4096 + b.toNat * 256 + nn.toNat := by
  rw [ofNibblesByte, toNat_append_eq, toNat_append_eq]
  omega

theorem toNat_ofNibbleAddr (a : Nibble) (nnn : Addr12) :
    (ofNibbleAddr a nnn).toNat = a.toNat * 4096 + nnn.toNat := by
  rw [ofNibbleAddr, toNat_append_eq]
  omega

theorem toNat_opField (w : Word) : (opField w).toNat = w.toNat / 4096 := by
  have := w.isLt
  simp only [opField, BitVec.extractLsb_toNat, Nat.shiftRight_eq_div_pow]
  omega

theorem val_xField (w : Word) : (xField w).val = w.toNat / 256 % 16 := by
  show (w.extractLsb 11 8).toNat = _
  simp only [BitVec.extractLsb_toNat, Nat.shiftRight_eq_div_pow]

theorem val_yField (w : Word) : (yField w).val = w.toNat / 16 % 16 := by
  show (w.extractLsb 7 4).toNat = _
  simp only [BitVec.extractLsb_toNat, Nat.shiftRight_eq_div_pow]

theorem val_nField (w : Word) : (nField w).val = w.toNat % 16 := by
  show (w.extractLsb 3 0).toNat = _
  simp only [BitVec.extractLsb_toNat, Nat.shiftRight_zero]

theorem toNat_nnField (w : Word) : (nnField w).toNat = w.toNat % 256 := by
  simp only [nnField, BitVec.extractLsb_toNat, Nat.shiftRight_zero]

theorem toNat_nnnField (w : Word) : (nnnField w).toNat = w.toNat % 4096 := by
  simp only [nnnField, BitVec.extractLsb_toNat, Nat.shiftRight_zero]

theorem toNat_nibble (x : Fin 16) : (nibble x).toNat = x.val := rfl

/-! ## Reading what was written -/

theorem opField_ofNibbles (a b c d : Nibble) : opField (ofNibbles a b c d) = a := by
  apply BitVec.eq_of_toNat_eq
  have := a.isLt; have := b.isLt; have := c.isLt; have := d.isLt
  rw [toNat_opField, toNat_ofNibbles]; omega

theorem xField_ofNibbles (a b c d : Nibble) : xField (ofNibbles a b c d) = b.toFin := by
  apply Fin.ext
  have := a.isLt; have := b.isLt; have := c.isLt; have := d.isLt
  rw [val_xField, toNat_ofNibbles, BitVec.val_toFin]; omega

theorem yField_ofNibbles (a b c d : Nibble) : yField (ofNibbles a b c d) = c.toFin := by
  apply Fin.ext
  have := a.isLt; have := b.isLt; have := c.isLt; have := d.isLt
  rw [val_yField, toNat_ofNibbles, BitVec.val_toFin]; omega

theorem nField_ofNibbles (a b c d : Nibble) : nField (ofNibbles a b c d) = d.toFin := by
  apply Fin.ext
  have := a.isLt; have := b.isLt; have := c.isLt; have := d.isLt
  rw [val_nField, toNat_ofNibbles, BitVec.val_toFin]; omega

theorem opField_ofNibblesByte (a b : Nibble) (nn : Byte) : opField (ofNibblesByte a b nn) = a := by
  apply BitVec.eq_of_toNat_eq
  have := a.isLt; have := b.isLt; have := nn.isLt
  rw [toNat_opField, toNat_ofNibblesByte]; omega

theorem xField_ofNibblesByte (a b : Nibble) (nn : Byte) : xField (ofNibblesByte a b nn) = b.toFin := by
  apply Fin.ext
  have := a.isLt; have := b.isLt; have := nn.isLt
  rw [val_xField, toNat_ofNibblesByte, BitVec.val_toFin]; omega

theorem nnField_ofNibblesByte (a b : Nibble) (nn : Byte) : nnField (ofNibblesByte a b nn) = nn := by
  apply BitVec.eq_of_toNat_eq
  have := a.isLt; have := b.isLt; have := nn.isLt
  rw [toNat_nnField, toNat_ofNibblesByte]; omega

theorem opField_ofNibbleAddr (a : Nibble) (nnn : Addr12) : opField (ofNibbleAddr a nnn) = a := by
  apply BitVec.eq_of_toNat_eq
  have := a.isLt; have := nnn.isLt
  rw [toNat_opField, toNat_ofNibbleAddr]; omega

theorem nnnField_ofNibbleAddr (a : Nibble) (nnn : Addr12) : nnnField (ofNibbleAddr a nnn) = nnn := by
  apply BitVec.eq_of_toNat_eq
  have := a.isLt; have := nnn.isLt
  rw [toNat_nnnField, toNat_ofNibbleAddr]; omega

/-! ## Masks (30_encoding.md R54): what is left of a word under the mask of its format -/

theorem ofNibbles_and (a b c d a' b' c' d' : Nibble) :
    ofNibbles a b c d &&& ofNibbles a' b' c' d' = ofNibbles (a &&& a') (b &&& b') (c &&& c') (d &&& d') := by
  show (((a ++ b) ++ c) ++ d) &&& (((a' ++ b') ++ c') ++ d') = (((a &&& a') ++ (b &&& b')) ++ (c &&& c')) ++ (d &&& d')
  rw [BitVec.and_append, BitVec.and_append, BitVec.and_append]

theorem ofNibblesByte_and (a b a' b' : Nibble) (nn nn' : Byte) :
    ofNibblesByte a b nn &&& ofNibblesByte a' b' nn' = ofNibblesByte (a &&& a') (b &&& b') (nn &&& nn') := by
  show ((a ++ b) ++ nn) &&& ((a' ++ b') ++ nn') = ((a &&& a') ++ (b &&& b')) ++ (nn &&& nn')
  rw [BitVec.and_append, BitVec.and_append]

theorem ofNibbleAddr_and (a a' : Nibble) (nnn nnn' : Addr12) :
    ofNibbleAddr a nnn &&& ofNibbleAddr a' nnn' = ofNibbleAddr (a &&& a') (nnn &&& nnn') := by
  show (a ++ nnn) &&& (a' ++ nnn') = (a &&& a') ++ (nnn &&& nnn')
  rw [BitVec.and_append]

theorem selects_ofNibbles (a b c d : Nibble) :
    (OpcodeRow.mk 0xF00F (ofNibbles a 0 0 d)).selects (ofNibbles a b c d) = true := by
  rw [OpcodeRow.selects, beq_iff_eq, show (0xF00F : Word) = ofNibbles (BitVec.allOnes 4) 0 0 (BitVec.allOnes 4) from rfl,
    ofNibbles_and, BitVec.and_allOnes, BitVec.and_allOnes]
  simp

theorem selects_ofNibbles_op (a b c d : Nibble) :
    (OpcodeRow.mk 0xF000 (ofNibbles a 0 0 0)).selects (ofNibbles a b c d) = true := by
  rw [OpcodeRow.selects, beq_iff_eq, show (0xF000 : Word) = ofNibbles (BitVec.allOnes 4) 0 0 0 from rfl,
    ofNibbles_and, BitVec.and_allOnes]
  simp

theorem selects_ofNibblesByte (a b : Nibble) (nn : Byte) :
    (OpcodeRow.mk 0xF0FF (ofNibblesByte a 0 nn)).selects (ofNibblesByte a b nn) = true := by
  rw [OpcodeRow.selects, beq_iff_eq, show (0xF0FF : Word) = ofNibblesByte (BitVec.allOnes 4) 0 (BitVec.allOnes 8) from rfl,
    ofNibblesByte_and, BitVec.and_allOnes, BitVec.and_allOnes]
  simp

theorem selects_ofNibblesByte_op (a b : Nibble) (nn : Byte) :
    (OpcodeRow.mk 0xF000 (ofNibblesByte a 0 0)).selects (ofNibblesByte a b nn) = true := by
  rw [OpcodeRow.selects, beq_iff_eq, show (0xF000 : Word) = ofNibblesByte (BitVec.allOnes 4) 0 0 from rfl,
    ofNibblesByte_and, BitVec.and_allOnes]
  simp

theorem selects_ofNibbleAddr (a : Nibble) (nnn : Addr12) :
    (OpcodeRow.mk 0xF000 (ofNibbleAddr a 0)).selects (ofNibbleAddr a nnn) = true := by
  rw [OpcodeRow.selects, beq_iff_eq, show (0xF000 : Word) = ofNibbleAddr (BitVec.allOnes 4) 0 from rfl,
    ofNibbleAddr_and, BitVec.and_allOnes]
  simp

/-! ## Every word is made of its fields -/

theorem ofNibbles_fields (w : Word) :
    ofNibbles (opField w) (nibble (xField w)) (nibble (yField w)) (nibble (nField w)) = w := by
  apply BitVec.eq_of_toNat_eq
  rw [toNat_ofNibbles, toNat_opField, toNat_nibble, toNat_nibble, toNat_nibble, val_xField, val_yField,
    val_nField]
  omega

theorem ofNibblesByte_fields (w : Word) : ofNibblesByte (opField w) (nibble (xField w)) (nnField w) = w := by
  apply BitVec.eq_of_toNat_eq
  rw [toNat_ofNibblesByte, toNat_opField, toNat_nibble, val_xField, toNat_nnField]
  omega

theorem ofNibbleAddr_fields (w : Word) : ofNibbleAddr (opField w) (nnnField w) = w := by
  apply BitVec.eq_of_toNat_eq
  rw [toNat_ofNibbleAddr, toNat_opField, toNat_nnnField]
  omega

end Sys2Proof
end

