-- ==== Sys2Proof/Laws/State.lean ====
section
/-! SUPPORT. One lemma per field per update of the state, so that no later proof unfolds a record update, and
what each update does to a register and to a byte of memory. -/

namespace Sys2Proof.Machine

variable (s : State)

/-! ### setReg -/

@[simp] theorem State.setReg_v (x : Reg) (b : Byte) : (s.setReg x b).v = s.v.set x b := rfl
@[simp] theorem State.setReg_i (x : Reg) (b : Byte) : (s.setReg x b).i = s.i := rfl
@[simp] theorem State.setReg_pc (x : Reg) (b : Byte) : (s.setReg x b).pc = s.pc := rfl
@[simp] theorem State.setReg_stack (x : Reg) (b : Byte) : (s.setReg x b).stack = s.stack := rfl
@[simp] theorem State.setReg_dt (x : Reg) (b : Byte) : (s.setReg x b).dt = s.dt := rfl
@[simp] theorem State.setReg_st (x : Reg) (b : Byte) : (s.setReg x b).st = s.st := rfl
@[simp] theorem State.setReg_fb (x : Reg) (b : Byte) : (s.setReg x b).fb = s.fb := rfl
@[simp] theorem State.setReg_mem (x : Reg) (b : Byte) : (s.setReg x b).mem = s.mem := rfl
@[simp] theorem State.setReg_halted (x : Reg) (b : Byte) : (s.setReg x b).halted = s.halted := rfl
@[simp] theorem State.setReg_faultCode (x : Reg) (b : Byte) : (s.setReg x b).faultCode = s.faultCode := rfl
@[simp] theorem State.setReg_faultInstr (x : Reg) (b : Byte) : (s.setReg x b).faultInstr = s.faultInstr := rfl
@[simp] theorem State.setReg_faultPc (x : Reg) (b : Byte) : (s.setReg x b).faultPc = s.faultPc := rfl
@[simp] theorem State.setReg_cfg (x : Reg) (b : Byte) : (s.setReg x b).cfg = s.cfg := rfl
@[simp] theorem State.setReg_env (x : Reg) (b : Byte) : (s.setReg x b).env = s.env := rfl

/-! ### setIndex -/

@[simp] theorem State.setIndex_v (w : Word) : (s.setIndex w).v = s.v := rfl
@[simp] theorem State.setIndex_i (w : Word) : (s.setIndex w).i = w := rfl
@[simp] theorem State.setIndex_pc (w : Word) : (s.setIndex w).pc = s.pc := rfl
@[simp] theorem State.setIndex_stack (w : Word) : (s.setIndex w).stack = s.stack := rfl
@[simp] theorem State.setIndex_dt (w : Word) : (s.setIndex w).dt = s.dt := rfl
@[simp] theorem State.setIndex_st (w : Word) : (s.setIndex w).st = s.st := rfl
@[simp] theorem State.setIndex_fb (w : Word) : (s.setIndex w).fb = s.fb := rfl
@[simp] theorem State.setIndex_mem (w : Word) : (s.setIndex w).mem = s.mem := rfl
@[simp] theorem State.setIndex_halted (w : Word) : (s.setIndex w).halted = s.halted := rfl
@[simp] theorem State.setIndex_faultCode (w : Word) : (s.setIndex w).faultCode = s.faultCode := rfl
@[simp] theorem State.setIndex_faultInstr (w : Word) : (s.setIndex w).faultInstr = s.faultInstr := rfl
@[simp] theorem State.setIndex_faultPc (w : Word) : (s.setIndex w).faultPc = s.faultPc := rfl
@[simp] theorem State.setIndex_cfg (w : Word) : (s.setIndex w).cfg = s.cfg := rfl
@[simp] theorem State.setIndex_env (w : Word) : (s.setIndex w).env = s.env := rfl

/-! ### setPc -/

@[simp] theorem State.setPc_v (w : Word) : (s.setPc w).v = s.v := rfl
@[simp] theorem State.setPc_i (w : Word) : (s.setPc w).i = s.i := rfl
@[simp] theorem State.setPc_pc (w : Word) : (s.setPc w).pc = w := rfl
@[simp] theorem State.setPc_stack (w : Word) : (s.setPc w).stack = s.stack := rfl
@[simp] theorem State.setPc_dt (w : Word) : (s.setPc w).dt = s.dt := rfl
@[simp] theorem State.setPc_st (w : Word) : (s.setPc w).st = s.st := rfl
@[simp] theorem State.setPc_fb (w : Word) : (s.setPc w).fb = s.fb := rfl
@[simp] theorem State.setPc_mem (w : Word) : (s.setPc w).mem = s.mem := rfl
@[simp] theorem State.setPc_halted (w : Word) : (s.setPc w).halted = s.halted := rfl
@[simp] theorem State.setPc_faultCode (w : Word) : (s.setPc w).faultCode = s.faultCode := rfl
@[simp] theorem State.setPc_faultInstr (w : Word) : (s.setPc w).faultInstr = s.faultInstr := rfl
@[simp] theorem State.setPc_faultPc (w : Word) : (s.setPc w).faultPc = s.faultPc := rfl
@[simp] theorem State.setPc_cfg (w : Word) : (s.setPc w).cfg = s.cfg := rfl
@[simp] theorem State.setPc_env (w : Word) : (s.setPc w).env = s.env := rfl

/-! ### advance -/

@[simp] theorem State.advance_v : (s.advance).v = s.v := rfl
@[simp] theorem State.advance_i : (s.advance).i = s.i := rfl
@[simp] theorem State.advance_pc : (s.advance).pc = s.pc + 2 := rfl
@[simp] theorem State.advance_stack : (s.advance).stack = s.stack := rfl
@[simp] theorem State.advance_dt : (s.advance).dt = s.dt := rfl
@[simp] theorem State.advance_st : (s.advance).st = s.st := rfl
@[simp] theorem State.advance_fb : (s.advance).fb = s.fb := rfl
@[simp] theorem State.advance_mem : (s.advance).mem = s.mem := rfl
@[simp] theorem State.advance_halted : (s.advance).halted = s.halted := rfl
@[simp] theorem State.advance_faultCode : (s.advance).faultCode = s.faultCode := rfl
@[simp] theorem State.advance_faultInstr : (s.advance).faultInstr = s.faultInstr := rfl
@[simp] theorem State.advance_faultPc : (s.advance).faultPc = s.faultPc := rfl
@[simp] theorem State.advance_cfg : (s.advance).cfg = s.cfg := rfl
@[simp] theorem State.advance_env : (s.advance).env = s.env := rfl

/-! ### push -/

@[simp] theorem State.push_v (w : Word) : (s.push w).v = s.v := rfl
@[simp] theorem State.push_i (w : Word) : (s.push w).i = s.i := rfl
@[simp] theorem State.push_pc (w : Word) : (s.push w).pc = s.pc := rfl
@[simp] theorem State.push_stack (w : Word) : (s.push w).stack = w :: s.stack := rfl
@[simp] theorem State.push_dt (w : Word) : (s.push w).dt = s.dt := rfl
@[simp] theorem State.push_st (w : Word) : (s.push w).st = s.st := rfl
@[simp] theorem State.push_fb (w : Word) : (s.push w).fb = s.fb := rfl
@[simp] theorem State.push_mem (w : Word) : (s.push w).mem = s.mem := rfl
@[simp] theorem State.push_halted (w : Word) : (s.push w).halted = s.halted := rfl
@[simp] theorem State.push_faultCode (w : Word) : (s.push w).faultCode = s.faultCode := rfl
@[simp] theorem State.push_faultInstr (w : Word) : (s.push w).faultInstr = s.faultInstr := rfl
@[simp] theorem State.push_faultPc (w : Word) : (s.push w).faultPc = s.faultPc := rfl
@[simp] theorem State.push_cfg (w : Word) : (s.push w).cfg = s.cfg := rfl
@[simp] theorem State.push_env (w : Word) : (s.push w).env = s.env := rfl

/-! ### raise -/

@[simp] theorem State.raise_v (f : Fault) (w : Word) : (s.raise f w).v = s.v := rfl
@[simp] theorem State.raise_i (f : Fault) (w : Word) : (s.raise f w).i = s.i := rfl
@[simp] theorem State.raise_pc (f : Fault) (w : Word) : (s.raise f w).pc = s.pc := rfl
@[simp] theorem State.raise_stack (f : Fault) (w : Word) : (s.raise f w).stack = s.stack := rfl
@[simp] theorem State.raise_dt (f : Fault) (w : Word) : (s.raise f w).dt = s.dt := rfl
@[simp] theorem State.raise_st (f : Fault) (w : Word) : (s.raise f w).st = s.st := rfl
@[simp] theorem State.raise_fb (f : Fault) (w : Word) : (s.raise f w).fb = s.fb := rfl
@[simp] theorem State.raise_mem (f : Fault) (w : Word) : (s.raise f w).mem = s.mem := rfl
@[simp] theorem State.raise_halted (f : Fault) (w : Word) : (s.raise f w).halted = true := rfl
@[simp] theorem State.raise_faultCode (f : Fault) (w : Word) : (s.raise f w).faultCode = f.code := rfl
@[simp] theorem State.raise_faultInstr (f : Fault) (w : Word) : (s.raise f w).faultInstr = w := rfl
@[simp] theorem State.raise_faultPc (f : Fault) (w : Word) : (s.raise f w).faultPc = s.pc := rfl
@[simp] theorem State.raise_cfg (f : Fault) (w : Word) : (s.raise f w).cfg = s.cfg := rfl
@[simp] theorem State.raise_env (f : Fault) (w : Word) : (s.raise f w).env = s.env := rfl

/-! ### tick -/

@[simp] theorem State.tick_v : (s.tick).v = s.v := rfl
@[simp] theorem State.tick_i : (s.tick).i = s.i := rfl
@[simp] theorem State.tick_pc : (s.tick).pc = s.pc := rfl
@[simp] theorem State.tick_stack : (s.tick).stack = s.stack := rfl
@[simp] theorem State.tick_dt : (s.tick).dt = countDown s.dt := rfl
@[simp] theorem State.tick_st : (s.tick).st = countDown s.st := rfl
@[simp] theorem State.tick_fb : (s.tick).fb = s.fb := rfl
@[simp] theorem State.tick_mem : (s.tick).mem = s.mem := rfl
@[simp] theorem State.tick_halted : (s.tick).halted = s.halted := rfl
@[simp] theorem State.tick_faultCode : (s.tick).faultCode = s.faultCode := rfl
@[simp] theorem State.tick_faultInstr : (s.tick).faultInstr = s.faultInstr := rfl
@[simp] theorem State.tick_faultPc : (s.tick).faultPc = s.faultPc := rfl
@[simp] theorem State.tick_cfg : (s.tick).cfg = s.cfg := rfl
@[simp] theorem State.tick_env : (s.tick).env = { s.env with tones := s.env.tones + toneCount s.st } := rfl

/-! ### sample -/

@[simp] theorem State.sample_v (k : Option Key) (r : Byte) : (s.sample k r).v = s.v := rfl
@[simp] theorem State.sample_i (k : Option Key) (r : Byte) : (s.sample k r).i = s.i := rfl
@[simp] theorem State.sample_pc (k : Option Key) (r : Byte) : (s.sample k r).pc = s.pc := rfl
@[simp] theorem State.sample_stack (k : Option Key) (r : Byte) : (s.sample k r).stack = s.stack := rfl
@[simp] theorem State.sample_dt (k : Option Key) (r : Byte) : (s.sample k r).dt = s.dt := rfl
@[simp] theorem State.sample_st (k : Option Key) (r : Byte) : (s.sample k r).st = s.st := rfl
@[simp] theorem State.sample_fb (k : Option Key) (r : Byte) : (s.sample k r).fb = s.fb := rfl
@[simp] theorem State.sample_mem (k : Option Key) (r : Byte) : (s.sample k r).mem = s.mem := rfl
@[simp] theorem State.sample_halted (k : Option Key) (r : Byte) : (s.sample k r).halted = s.halted := rfl
@[simp] theorem State.sample_faultCode (k : Option Key) (r : Byte) : (s.sample k r).faultCode = s.faultCode := rfl
@[simp] theorem State.sample_faultInstr (k : Option Key) (r : Byte) : (s.sample k r).faultInstr = s.faultInstr := rfl
@[simp] theorem State.sample_faultPc (k : Option Key) (r : Byte) : (s.sample k r).faultPc = s.faultPc := rfl
@[simp] theorem State.sample_cfg (k : Option Key) (r : Byte) : (s.sample k r).cfg = s.cfg := rfl
@[simp] theorem State.sample_env (k : Option Key) (r : Byte) : (s.sample k r).env = { s.env with key := k, rnd := r } := rfl

/-! ### withEvents -/

@[simp] theorem State.withEvents_v (es : List Event) : (s.withEvents es).v = s.v := rfl
@[simp] theorem State.withEvents_i (es : List Event) : (s.withEvents es).i = s.i := rfl
@[simp] theorem State.withEvents_pc (es : List Event) : (s.withEvents es).pc = s.pc := rfl
@[simp] theorem State.withEvents_stack (es : List Event) : (s.withEvents es).stack = s.stack := rfl
@[simp] theorem State.withEvents_dt (es : List Event) : (s.withEvents es).dt = s.dt := rfl
@[simp] theorem State.withEvents_st (es : List Event) : (s.withEvents es).st = s.st := rfl
@[simp] theorem State.withEvents_fb (es : List Event) : (s.withEvents es).fb = s.fb := rfl
@[simp] theorem State.withEvents_mem (es : List Event) : (s.withEvents es).mem = s.mem := rfl
@[simp] theorem State.withEvents_halted (es : List Event) : (s.withEvents es).halted = s.halted := rfl
@[simp] theorem State.withEvents_faultCode (es : List Event) : (s.withEvents es).faultCode = s.faultCode := rfl
@[simp] theorem State.withEvents_faultInstr (es : List Event) : (s.withEvents es).faultInstr = s.faultInstr := rfl
@[simp] theorem State.withEvents_faultPc (es : List Event) : (s.withEvents es).faultPc = s.faultPc := rfl
@[simp] theorem State.withEvents_cfg (es : List Event) : (s.withEvents es).cfg = s.cfg := rfl
@[simp] theorem State.withEvents_env (es : List Event) : (s.withEvents es).env = { s.env with events := es } := rfl

/-! ### takeFreeStep -/

@[simp] theorem State.takeFreeStep_v (k : Nat) : (s.takeFreeStep k).v = s.v := rfl
@[simp] theorem State.takeFreeStep_i (k : Nat) : (s.takeFreeStep k).i = s.i := rfl
@[simp] theorem State.takeFreeStep_pc (k : Nat) : (s.takeFreeStep k).pc = s.pc := rfl
@[simp] theorem State.takeFreeStep_stack (k : Nat) : (s.takeFreeStep k).stack = s.stack := rfl
@[simp] theorem State.takeFreeStep_dt (k : Nat) : (s.takeFreeStep k).dt = s.dt := rfl
@[simp] theorem State.takeFreeStep_st (k : Nat) : (s.takeFreeStep k).st = s.st := rfl
@[simp] theorem State.takeFreeStep_fb (k : Nat) : (s.takeFreeStep k).fb = s.fb := rfl
@[simp] theorem State.takeFreeStep_mem (k : Nat) : (s.takeFreeStep k).mem = s.mem := rfl
@[simp] theorem State.takeFreeStep_halted (k : Nat) : (s.takeFreeStep k).halted = s.halted := rfl
@[simp] theorem State.takeFreeStep_faultCode (k : Nat) : (s.takeFreeStep k).faultCode = s.faultCode := rfl
@[simp] theorem State.takeFreeStep_faultInstr (k : Nat) : (s.takeFreeStep k).faultInstr = s.faultInstr := rfl
@[simp] theorem State.takeFreeStep_faultPc (k : Nat) : (s.takeFreeStep k).faultPc = s.faultPc := rfl
@[simp] theorem State.takeFreeStep_cfg (k : Nat) : (s.takeFreeStep k).cfg = s.cfg := rfl
@[simp] theorem State.takeFreeStep_env (k : Nat) : (s.takeFreeStep k).env = { s.env with stepsToTick := k, draws := s.env.draws + 1 } := rfl

/-! ### takeFreeTick -/

@[simp] theorem State.takeFreeTick_v : (s.takeFreeTick).v = s.v := rfl
@[simp] theorem State.takeFreeTick_i : (s.takeFreeTick).i = s.i := rfl
@[simp] theorem State.takeFreeTick_pc : (s.takeFreeTick).pc = s.pc := rfl
@[simp] theorem State.takeFreeTick_stack : (s.takeFreeTick).stack = s.stack := rfl
@[simp] theorem State.takeFreeTick_dt : (s.takeFreeTick).dt = s.dt := rfl
@[simp] theorem State.takeFreeTick_st : (s.takeFreeTick).st = s.st := rfl
@[simp] theorem State.takeFreeTick_fb : (s.takeFreeTick).fb = s.fb := rfl
@[simp] theorem State.takeFreeTick_mem : (s.takeFreeTick).mem = s.mem := rfl
@[simp] theorem State.takeFreeTick_halted : (s.takeFreeTick).halted = s.halted := rfl
@[simp] theorem State.takeFreeTick_faultCode : (s.takeFreeTick).faultCode = s.faultCode := rfl
@[simp] theorem State.takeFreeTick_faultInstr : (s.takeFreeTick).faultInstr = s.faultInstr := rfl
@[simp] theorem State.takeFreeTick_faultPc : (s.takeFreeTick).faultPc = s.faultPc := rfl
@[simp] theorem State.takeFreeTick_cfg : (s.takeFreeTick).cfg = s.cfg := rfl
@[simp] theorem State.takeFreeTick_env : (s.takeFreeTick).env = { s.env with stepsToTick := Config.freeGap s.env.ticksDrawn, ticksDrawn := s.env.ticksDrawn + 1 } := rfl

/-! ### writeByte -/

@[simp] theorem State.writeByte_v (a : Nat) (x : Byte) : (s.writeByte a x).v = s.v := rfl
@[simp] theorem State.writeByte_i (a : Nat) (x : Byte) : (s.writeByte a x).i = s.i := rfl
@[simp] theorem State.writeByte_pc (a : Nat) (x : Byte) : (s.writeByte a x).pc = s.pc := rfl
@[simp] theorem State.writeByte_stack (a : Nat) (x : Byte) : (s.writeByte a x).stack = s.stack := rfl
@[simp] theorem State.writeByte_dt (a : Nat) (x : Byte) : (s.writeByte a x).dt = s.dt := rfl
@[simp] theorem State.writeByte_st (a : Nat) (x : Byte) : (s.writeByte a x).st = s.st := rfl
@[simp] theorem State.writeByte_fb (a : Nat) (x : Byte) : (s.writeByte a x).fb = s.fb := rfl
@[simp] theorem State.writeByte_mem (a : Nat) (x : Byte) : (s.writeByte a x).mem = Memory.write s.cfg s.mem a x := rfl
@[simp] theorem State.writeByte_halted (a : Nat) (x : Byte) : (s.writeByte a x).halted = s.halted := rfl
@[simp] theorem State.writeByte_faultCode (a : Nat) (x : Byte) : (s.writeByte a x).faultCode = s.faultCode := rfl
@[simp] theorem State.writeByte_faultInstr (a : Nat) (x : Byte) : (s.writeByte a x).faultInstr = s.faultInstr := rfl
@[simp] theorem State.writeByte_faultPc (a : Nat) (x : Byte) : (s.writeByte a x).faultPc = s.faultPc := rfl
@[simp] theorem State.writeByte_cfg (a : Nat) (x : Byte) : (s.writeByte a x).cfg = s.cfg := rfl
@[simp] theorem State.writeByte_env (a : Nat) (x : Byte) : (s.writeByte a x).env = s.env := rfl

/-! ### writeFlagThenReg -/

@[simp] theorem State.writeFlagThenReg_i (x : Reg) (o : AluOut) : (s.writeFlagThenReg x o).i = s.i := rfl
@[simp] theorem State.writeFlagThenReg_pc (x : Reg) (o : AluOut) : (s.writeFlagThenReg x o).pc = s.pc := rfl
@[simp] theorem State.writeFlagThenReg_stack (x : Reg) (o : AluOut) : (s.writeFlagThenReg x o).stack = s.stack := rfl
@[simp] theorem State.writeFlagThenReg_dt (x : Reg) (o : AluOut) : (s.writeFlagThenReg x o).dt = s.dt := rfl
@[simp] theorem State.writeFlagThenReg_st (x : Reg) (o : AluOut) : (s.writeFlagThenReg x o).st = s.st := rfl
@[simp] theorem State.writeFlagThenReg_fb (x : Reg) (o : AluOut) : (s.writeFlagThenReg x o).fb = s.fb := rfl
@[simp] theorem State.writeFlagThenReg_mem (x : Reg) (o : AluOut) : (s.writeFlagThenReg x o).mem = s.mem := rfl
@[simp] theorem State.writeFlagThenReg_halted (x : Reg) (o : AluOut) : (s.writeFlagThenReg x o).halted = s.halted := rfl
@[simp] theorem State.writeFlagThenReg_faultCode (x : Reg) (o : AluOut) : (s.writeFlagThenReg x o).faultCode = s.faultCode := rfl
@[simp] theorem State.writeFlagThenReg_faultInstr (x : Reg) (o : AluOut) : (s.writeFlagThenReg x o).faultInstr = s.faultInstr := rfl
@[simp] theorem State.writeFlagThenReg_faultPc (x : Reg) (o : AluOut) : (s.writeFlagThenReg x o).faultPc = s.faultPc := rfl
@[simp] theorem State.writeFlagThenReg_cfg (x : Reg) (o : AluOut) : (s.writeFlagThenReg x o).cfg = s.cfg := rfl
@[simp] theorem State.writeFlagThenReg_env (x : Reg) (o : AluOut) : (s.writeFlagThenReg x o).env = s.env := rfl

/-! ### writeRegThenFlag -/

@[simp] theorem State.writeRegThenFlag_i (x : Reg) (o : AluOut) : (s.writeRegThenFlag x o).i = s.i := rfl
@[simp] theorem State.writeRegThenFlag_pc (x : Reg) (o : AluOut) : (s.writeRegThenFlag x o).pc = s.pc := rfl
@[simp] theorem State.writeRegThenFlag_stack (x : Reg) (o : AluOut) : (s.writeRegThenFlag x o).stack = s.stack := rfl
@[simp] theorem State.writeRegThenFlag_dt (x : Reg) (o : AluOut) : (s.writeRegThenFlag x o).dt = s.dt := rfl
@[simp] theorem State.writeRegThenFlag_st (x : Reg) (o : AluOut) : (s.writeRegThenFlag x o).st = s.st := rfl
@[simp] theorem State.writeRegThenFlag_fb (x : Reg) (o : AluOut) : (s.writeRegThenFlag x o).fb = s.fb := rfl
@[simp] theorem State.writeRegThenFlag_mem (x : Reg) (o : AluOut) : (s.writeRegThenFlag x o).mem = s.mem := rfl
@[simp] theorem State.writeRegThenFlag_halted (x : Reg) (o : AluOut) : (s.writeRegThenFlag x o).halted = s.halted := rfl
@[simp] theorem State.writeRegThenFlag_faultCode (x : Reg) (o : AluOut) : (s.writeRegThenFlag x o).faultCode = s.faultCode := rfl
@[simp] theorem State.writeRegThenFlag_faultInstr (x : Reg) (o : AluOut) : (s.writeRegThenFlag x o).faultInstr = s.faultInstr := rfl
@[simp] theorem State.writeRegThenFlag_faultPc (x : Reg) (o : AluOut) : (s.writeRegThenFlag x o).faultPc = s.faultPc := rfl
@[simp] theorem State.writeRegThenFlag_cfg (x : Reg) (o : AluOut) : (s.writeRegThenFlag x o).cfg = s.cfg := rfl
@[simp] theorem State.writeRegThenFlag_env (x : Reg) (o : AluOut) : (s.writeRegThenFlag x o).env = s.env := rfl

/-! ### skipIf -/

@[simp] theorem State.skipIf_v (c : Bool) : (s.skipIf c).v = s.v := by cases c <;> rfl
@[simp] theorem State.skipIf_i (c : Bool) : (s.skipIf c).i = s.i := by cases c <;> rfl
@[simp] theorem State.skipIf_pc (c : Bool) : (s.skipIf c).pc = if c then s.pc + 2 else s.pc := by
  cases c <;> rfl
@[simp] theorem State.skipIf_stack (c : Bool) : (s.skipIf c).stack = s.stack := by cases c <;> rfl
@[simp] theorem State.skipIf_dt (c : Bool) : (s.skipIf c).dt = s.dt := by cases c <;> rfl
@[simp] theorem State.skipIf_st (c : Bool) : (s.skipIf c).st = s.st := by cases c <;> rfl
@[simp] theorem State.skipIf_fb (c : Bool) : (s.skipIf c).fb = s.fb := by cases c <;> rfl
@[simp] theorem State.skipIf_mem (c : Bool) : (s.skipIf c).mem = s.mem := by cases c <;> rfl
@[simp] theorem State.skipIf_halted (c : Bool) : (s.skipIf c).halted = s.halted := by cases c <;> rfl
@[simp] theorem State.skipIf_faultCode (c : Bool) : (s.skipIf c).faultCode = s.faultCode := by cases c <;> rfl
@[simp] theorem State.skipIf_faultInstr (c : Bool) : (s.skipIf c).faultInstr = s.faultInstr := by cases c <;> rfl
@[simp] theorem State.skipIf_faultPc (c : Bool) : (s.skipIf c).faultPc = s.faultPc := by cases c <;> rfl
@[simp] theorem State.skipIf_cfg (c : Bool) : (s.skipIf c).cfg = s.cfg := by cases c <;> rfl
@[simp] theorem State.skipIf_env (c : Bool) : (s.skipIf c).env = s.env := by cases c <;> rfl

/-! ### takeUpcoming -/

@[simp] theorem State.takeUpcoming_v : s.takeUpcoming.v = s.v := by
  unfold State.takeUpcoming; repeat' split
  all_goals rfl
@[simp] theorem State.takeUpcoming_i : s.takeUpcoming.i = s.i := by
  unfold State.takeUpcoming; repeat' split
  all_goals rfl
@[simp] theorem State.takeUpcoming_pc : s.takeUpcoming.pc = s.pc := by
  unfold State.takeUpcoming; repeat' split
  all_goals rfl
@[simp] theorem State.takeUpcoming_stack : s.takeUpcoming.stack = s.stack := by
  unfold State.takeUpcoming; repeat' split
  all_goals rfl
@[simp] theorem State.takeUpcoming_dt : s.takeUpcoming.dt = s.dt := by
  unfold State.takeUpcoming; repeat' split
  all_goals rfl
@[simp] theorem State.takeUpcoming_st : s.takeUpcoming.st = s.st := by
  unfold State.takeUpcoming; repeat' split
  all_goals rfl
@[simp] theorem State.takeUpcoming_fb : s.takeUpcoming.fb = s.fb := by
  unfold State.takeUpcoming; repeat' split
  all_goals rfl
@[simp] theorem State.takeUpcoming_mem : s.takeUpcoming.mem = s.mem := by
  unfold State.takeUpcoming; repeat' split
  all_goals rfl
@[simp] theorem State.takeUpcoming_halted : s.takeUpcoming.halted = s.halted := by
  unfold State.takeUpcoming; repeat' split
  all_goals rfl
@[simp] theorem State.takeUpcoming_faultCode : s.takeUpcoming.faultCode = s.faultCode := by
  unfold State.takeUpcoming; repeat' split
  all_goals rfl
@[simp] theorem State.takeUpcoming_faultInstr : s.takeUpcoming.faultInstr = s.faultInstr := by
  unfold State.takeUpcoming; repeat' split
  all_goals rfl
@[simp] theorem State.takeUpcoming_faultPc : s.takeUpcoming.faultPc = s.faultPc := by
  unfold State.takeUpcoming; repeat' split
  all_goals rfl
@[simp] theorem State.takeUpcoming_cfg : s.takeUpcoming.cfg = s.cfg := by
  unfold State.takeUpcoming; repeat' split
  all_goals rfl

/-! ### setFlagIfIndexOver -/

@[simp] theorem State.setFlagIfIndexOver_i (k : Nat) : (s.setFlagIfIndexOver k).i = s.i := by
  unfold State.setFlagIfIndexOver; split <;> rfl
@[simp] theorem State.setFlagIfIndexOver_pc (k : Nat) : (s.setFlagIfIndexOver k).pc = s.pc := by
  unfold State.setFlagIfIndexOver; split <;> rfl
@[simp] theorem State.setFlagIfIndexOver_stack (k : Nat) : (s.setFlagIfIndexOver k).stack = s.stack := by
  unfold State.setFlagIfIndexOver; split <;> rfl
@[simp] theorem State.setFlagIfIndexOver_dt (k : Nat) : (s.setFlagIfIndexOver k).dt = s.dt := by
  unfold State.setFlagIfIndexOver; split <;> rfl
@[simp] theorem State.setFlagIfIndexOver_st (k : Nat) : (s.setFlagIfIndexOver k).st = s.st := by
  unfold State.setFlagIfIndexOver; split <;> rfl
@[simp] theorem State.setFlagIfIndexOver_fb (k : Nat) : (s.setFlagIfIndexOver k).fb = s.fb := by
  unfold State.setFlagIfIndexOver; split <;> rfl
@[simp] theorem State.setFlagIfIndexOver_mem (k : Nat) : (s.setFlagIfIndexOver k).mem = s.mem := by
  unfold State.setFlagIfIndexOver; split <;> rfl
@[simp] theorem State.setFlagIfIndexOver_halted (k : Nat) : (s.setFlagIfIndexOver k).halted = s.halted := by
  unfold State.setFlagIfIndexOver; split <;> rfl
@[simp] theorem State.setFlagIfIndexOver_faultCode (k : Nat) : (s.setFlagIfIndexOver k).faultCode = s.faultCode := by
  unfold State.setFlagIfIndexOver; split <;> rfl
@[simp] theorem State.setFlagIfIndexOver_faultInstr (k : Nat) : (s.setFlagIfIndexOver k).faultInstr = s.faultInstr := by
  unfold State.setFlagIfIndexOver; split <;> rfl
@[simp] theorem State.setFlagIfIndexOver_faultPc (k : Nat) : (s.setFlagIfIndexOver k).faultPc = s.faultPc := by
  unfold State.setFlagIfIndexOver; split <;> rfl
@[simp] theorem State.setFlagIfIndexOver_cfg (k : Nat) : (s.setFlagIfIndexOver k).cfg = s.cfg := by
  unfold State.setFlagIfIndexOver; split <;> rfl
@[simp] theorem State.setFlagIfIndexOver_env (k : Nat) : (s.setFlagIfIndexOver k).env = s.env := by
  unfold State.setFlagIfIndexOver; split <;> rfl

/-! ### storeBytes -/

@[simp] theorem State.storeBytes_v (a : Nat) (xs : List Byte) : (s.storeBytes a xs).v = s.v := by
  induction xs generalizing s a with
  | nil => rfl
  | cons x xs ih => exact ih (s.writeByte a x) (a + 1)
@[simp] theorem State.storeBytes_i (a : Nat) (xs : List Byte) : (s.storeBytes a xs).i = s.i := by
  induction xs generalizing s a with
  | nil => rfl
  | cons x xs ih => exact ih (s.writeByte a x) (a + 1)
@[simp] theorem State.storeBytes_pc (a : Nat) (xs : List Byte) : (s.storeBytes a xs).pc = s.pc := by
  induction xs generalizing s a with
  | nil => rfl
  | cons x xs ih => exact ih (s.writeByte a x) (a + 1)
@[simp] theorem State.storeBytes_stack (a : Nat) (xs : List Byte) : (s.storeBytes a xs).stack = s.stack := by
  induction xs generalizing s a with
  | nil => rfl
  | cons x xs ih => exact ih (s.writeByte a x) (a + 1)
@[simp] theorem State.storeBytes_dt (a : Nat) (xs : List Byte) : (s.storeBytes a xs).dt = s.dt := by
  induction xs generalizing s a with
  | nil => rfl
  | cons x xs ih => exact ih (s.writeByte a x) (a + 1)
@[simp] theorem State.storeBytes_st (a : Nat) (xs : List Byte) : (s.storeBytes a xs).st = s.st := by
  induction xs generalizing s a with
  | nil => rfl
  | cons x xs ih => exact ih (s.writeByte a x) (a + 1)
@[simp] theorem State.storeBytes_fb (a : Nat) (xs : List Byte) : (s.storeBytes a xs).fb = s.fb := by
  induction xs generalizing s a with
  | nil => rfl
  | cons x xs ih => exact ih (s.writeByte a x) (a + 1)
@[simp] theorem State.storeBytes_halted (a : Nat) (xs : List Byte) : (s.storeBytes a xs).halted = s.halted := by
  induction xs generalizing s a with
  | nil => rfl
  | cons x xs ih => exact ih (s.writeByte a x) (a + 1)
@[simp] theorem State.storeBytes_faultCode (a : Nat) (xs : List Byte) : (s.storeBytes a xs).faultCode = s.faultCode := by
  induction xs generalizing s a with
  | nil => rfl
  | cons x xs ih => exact ih (s.writeByte a x) (a + 1)
@[simp] theorem State.storeBytes_faultInstr (a : Nat) (xs : List Byte) : (s.storeBytes a xs).faultInstr = s.faultInstr := by
  induction xs generalizing s a with
  | nil => rfl
  | cons x xs ih => exact ih (s.writeByte a x) (a + 1)
@[simp] theorem State.storeBytes_faultPc (a : Nat) (xs : List Byte) : (s.storeBytes a xs).faultPc = s.faultPc := by
  induction xs generalizing s a with
  | nil => rfl
  | cons x xs ih => exact ih (s.writeByte a x) (a + 1)
@[simp] theorem State.storeBytes_cfg (a : Nat) (xs : List Byte) : (s.storeBytes a xs).cfg = s.cfg := by
  induction xs generalizing s a with
  | nil => rfl
  | cons x xs ih => exact ih (s.writeByte a x) (a + 1)
@[simp] theorem State.storeBytes_env (a : Nat) (xs : List Byte) : (s.storeBytes a xs).env = s.env := by
  induction xs generalizing s a with
  | nil => rfl
  | cons x xs ih => exact ih (s.writeByte a x) (a + 1)

/-! ### setRegsFrom -/

@[simp] theorem State.setRegsFrom_i (k : Nat) (bs : List Byte) : (s.setRegsFrom k bs).i = s.i := by
  induction bs generalizing s k with
  | nil => rfl
  | cons b bs ih =>
    rw [State.setRegsFrom, ih]
    split <;> rfl
@[simp] theorem State.setRegsFrom_pc (k : Nat) (bs : List Byte) : (s.setRegsFrom k bs).pc = s.pc := by
  induction bs generalizing s k with
  | nil => rfl
  | cons b bs ih =>
    rw [State.setRegsFrom, ih]
    split <;> rfl
@[simp] theorem State.setRegsFrom_stack (k : Nat) (bs : List Byte) : (s.setRegsFrom k bs).stack = s.stack := by
  induction bs generalizing s k with
  | nil => rfl
  | cons b bs ih =>
    rw [State.setRegsFrom, ih]
    split <;> rfl
@[simp] theorem State.setRegsFrom_dt (k : Nat) (bs : List Byte) : (s.setRegsFrom k bs).dt = s.dt := by
  induction bs generalizing s k with
  | nil => rfl
  | cons b bs ih =>
    rw [State.setRegsFrom, ih]
    split <;> rfl
@[simp] theorem State.setRegsFrom_st (k : Nat) (bs : List Byte) : (s.setRegsFrom k bs).st = s.st := by
  induction bs generalizing s k with
  | nil => rfl
  | cons b bs ih =>
    rw [State.setRegsFrom, ih]
    split <;> rfl
@[simp] theorem State.setRegsFrom_fb (k : Nat) (bs : List Byte) : (s.setRegsFrom k bs).fb = s.fb := by
  induction bs generalizing s k with
  | nil => rfl
  | cons b bs ih =>
    rw [State.setRegsFrom, ih]
    split <;> rfl
@[simp] theorem State.setRegsFrom_mem (k : Nat) (bs : List Byte) : (s.setRegsFrom k bs).mem = s.mem := by
  induction bs generalizing s k with
  | nil => rfl
  | cons b bs ih =>
    rw [State.setRegsFrom, ih]
    split <;> rfl
@[simp] theorem State.setRegsFrom_halted (k : Nat) (bs : List Byte) : (s.setRegsFrom k bs).halted = s.halted := by
  induction bs generalizing s k with
  | nil => rfl
  | cons b bs ih =>
    rw [State.setRegsFrom, ih]
    split <;> rfl
@[simp] theorem State.setRegsFrom_faultCode (k : Nat) (bs : List Byte) : (s.setRegsFrom k bs).faultCode = s.faultCode := by
  induction bs generalizing s k with
  | nil => rfl
  | cons b bs ih =>
    rw [State.setRegsFrom, ih]
    split <;> rfl
@[simp] theorem State.setRegsFrom_faultInstr (k : Nat) (bs : List Byte) : (s.setRegsFrom k bs).faultInstr = s.faultInstr := by
  induction bs generalizing s k with
  | nil => rfl
  | cons b bs ih =>
    rw [State.setRegsFrom, ih]
    split <;> rfl
@[simp] theorem State.setRegsFrom_faultPc (k : Nat) (bs : List Byte) : (s.setRegsFrom k bs).faultPc = s.faultPc := by
  induction bs generalizing s k with
  | nil => rfl
  | cons b bs ih =>
    rw [State.setRegsFrom, ih]
    split <;> rfl
@[simp] theorem State.setRegsFrom_cfg (k : Nat) (bs : List Byte) : (s.setRegsFrom k bs).cfg = s.cfg := by
  induction bs generalizing s k with
  | nil => rfl
  | cons b bs ih =>
    rw [State.setRegsFrom, ih]
    split <;> rfl
@[simp] theorem State.setRegsFrom_env (k : Nat) (bs : List Byte) : (s.setRegsFrom k bs).env = s.env := by
  induction bs generalizing s k with
  | nil => rfl
  | cons b bs ih =>
    rw [State.setRegsFrom, ih]
    split <;> rfl

/-! ### Registers -/

theorem State.reg_congr {s t : State} (h : t.v = s.v) (r : Reg) : t.reg r = s.reg r := by
  rw [State.reg, State.reg, h]

theorem State.reg_setReg (x r : Reg) (b : Byte) :
    (s.setReg x b).reg r = if r = x then b else s.reg r := by
  simp only [State.reg, State.setReg_v, Vector.get_eq_getElem, Vector.getElem_set]
  by_cases h : r = x
  · simp [h]
  · rw [if_neg h, if_neg (fun e => h (Fin.ext e.symm))]

theorem State.reg_setReg_self (x : Reg) (b : Byte) : (s.setReg x b).reg x = b := by
  rw [State.reg_setReg, if_pos rfl]

theorem State.reg_setReg_of_ne {x r : Reg} (b : Byte) (h : r ≠ x) : (s.setReg x b).reg r = s.reg r := by
  rw [State.reg_setReg, if_neg h]

/-- VF, then Vx: the later write wins (41_alu.md R104). -/
theorem State.reg_writeFlagThenReg (x r : Reg) (o : AluOut) :
    (s.writeFlagThenReg x o).reg r = if r = x then o.r else if r = VF then flagByte o.f else s.reg r := by
  rw [State.writeFlagThenReg, State.reg_setReg, State.reg_setReg]

/-- Vx, then VF: the later write wins (41_alu.md R104). -/
theorem State.reg_writeRegThenFlag (x r : Reg) (o : AluOut) :
    (s.writeRegThenFlag x o).reg r = if r = VF then flagByte o.f else if r = x then o.r else s.reg r := by
  rw [State.writeRegThenFlag, State.reg_setReg, State.reg_setReg]

theorem State.reg_setFlagIfIndexOver (k : Nat) (r : Reg) :
    (s.setFlagIfIndexOver k).reg r = if 4096 ≤ k ∧ r = VF then 1 else s.reg r := by
  unfold State.setFlagIfIndexOver
  split
  · rename_i h
    simp only [State.reg_setReg, h, true_and]
  · rename_i h
    simp only [h, false_and, if_false]

/-- A run of bytes loaded from `V[k]` on: register `k + j` holds byte `j`, the others are unchanged. -/
theorem State.reg_setRegsFrom (k : Nat) (bs : List Byte) (r : Reg) :
    (s.setRegsFrom k bs).reg r =
      if k ≤ r.val ∧ r.val < k + bs.length then bs.getD (r.val - k) 0 else s.reg r := by
  induction bs generalizing s k with
  | nil => rw [State.setRegsFrom, if_neg (by simp only [List.length_nil]; omega)]
  | cons b bs ih =>
    rw [State.setRegsFrom, ih, List.length_cons]
    by_cases hr : r.val = k
    · have hk : k < 16 := hr ▸ r.isLt
      have hx : r = (⟨k, hk⟩ : Reg) := Fin.ext hr
      rw [if_neg (by omega), if_pos (by omega), dif_pos hk, ← hx, State.reg_setReg_self, hr, Nat.sub_self]
      rfl
    · have hkeep : (if h : k < 16 then s.setReg ⟨k, h⟩ b else s).reg r = s.reg r := by
        split
        · exact State.reg_setReg_of_ne s b (fun e => hr (congrArg Fin.val e))
        · rfl
      by_cases hin : k ≤ r.val ∧ r.val < k + (bs.length + 1)
      · rw [if_pos (by omega), if_pos hin, show r.val - k = (r.val - (k + 1)) + 1 by omega,
          List.getD_cons_succ]
      · rw [if_neg (by omega), if_neg hin, hkeep]

/-! ### Timers -/

theorem toNat_countDown (t : Byte) : (countDown t).toNat = t.toNat - 1 := by
  unfold countDown
  split <;> bv_omega

theorem toneCount_eq (t : Byte) : toneCount t = min 1 t.toNat := by
  unfold toneCount
  split <;> omega

/-! ### Reading a byte of memory -/

theorem State.readByte_congr {s t : State} (hc : t.cfg = s.cfg) (hm : t.mem = s.mem) (a : Nat) :
    t.readByte a = s.readByte a := by
  rw [State.readByte, State.readByte, hc, hm]

/-- A state updated outside memory and parameters reads the same bytes. -/
theorem State.keepsMemory_of_eq {s t : State} (hc : t.cfg = s.cfg) (hm : t.mem = s.mem) : keepsMemory s t :=
  fun a => State.readByte_congr hc hm a

end Sys2Proof.Machine
end

