-- ==== Sys2Proof/Laws/Memory.lean ====
section
/-! SUPPORT. The laws of memory: read after write, every operation keeps the canonical form, and what a store of several bytes does to every address. -/

namespace Sys2Proof.Machine

/-! ## One cell -/

theorem Memory.find_insert_self (a : Nat) (x : Byte) (m : List Host.Cell) :
    Memory.find (Memory.insert a x m) a = some x := by
  induction m with
  | nil => simp [Memory.insert, Memory.find]
  | cons p m ih =>
    obtain ⟨b, y⟩ := p
    unfold Memory.insert
    split
    · simp [Memory.find]
    · split
      · simp [Memory.find]
      · rename_i h1 h2
        rw [Memory.find, if_neg h2, ih]

theorem Memory.find_insert_of_ne {a b : Nat} (x : Byte) (m : List Host.Cell) (h : b ≠ a) :
    Memory.find (Memory.insert a x m) b = Memory.find m b := by
  induction m with
  | nil => simp [Memory.insert, Memory.find, h]
  | cons p m ih =>
    obtain ⟨c, y⟩ := p
    unfold Memory.insert
    split
    · rw [Memory.find, if_neg h]
    · split
      · rename_i h1 h2
        rw [Memory.find, Memory.find, if_neg h, if_neg (h2 ▸ h)]
      · rw [Memory.find, Memory.find, ih]

theorem Memory.find_erase_of_ne {a b : Nat} (m : List Host.Cell) (h : b ≠ a) :
    Memory.find (Memory.erase a m) b = Memory.find m b := by
  induction m with
  | nil => rfl
  | cons p m ih =>
    obtain ⟨c, y⟩ := p
    unfold Memory.erase
    split
    · rename_i h1
      rw [Memory.find, if_neg (h1 ▸ h)]
    · rw [Memory.find, Memory.find, ih]

theorem Memory.find_eq_none_of_lt {a : Nat} {m : List Host.Cell} (h : ∀ p ∈ m, a < p.1) :
    Memory.find m a = none := by
  induction m with
  | nil => rfl
  | cons p m ih =>
    have hp := h p (List.mem_cons_self ..)
    rw [Memory.find, if_neg (by omega)]
    exact ih fun q hq => h q (List.mem_cons_of_mem _ hq)

theorem Memory.find_erase_self {a : Nat} {m : List Host.Cell} (h : m.Pairwise (fun p q => p.1 < q.1)) :
    Memory.find (Memory.erase a m) a = none := by
  induction m with
  | nil => rfl
  | cons p m ih =>
    obtain ⟨c, y⟩ := p
    rw [List.pairwise_cons] at h
    unfold Memory.erase
    split
    · rename_i h1
      exact Memory.find_eq_none_of_lt fun q hq => h1 ▸ h.1 q hq
    · rename_i h1
      rw [Memory.find, if_neg h1]
      exact ih h.2

/-! ## Read after write -/

/-- A write leaves every other address alone. -/
theorem Memory.read_write_of_ne (c : Config) (m : List Host.Cell) {a b : Nat} (x : Byte) (h : b ≠ a) :
    Memory.read c (Memory.write c m a x) b = Memory.read c m b := by
  unfold Memory.read Memory.write
  split
  · rw [Memory.find_erase_of_ne m h]
  · rw [Memory.find_insert_of_ne x m h]

/-- A read after a write of a canonical memory gives the value written. -/
theorem Memory.read_write_self {c : Config} {m : List Host.Cell} (hm : Memory.wf c m) (a : Nat) (x : Byte) :
    Memory.read c (Memory.write c m a x) a = x := by
  unfold Memory.read Memory.write
  split
  · rename_i h
    rw [Memory.find_erase_self hm.1, Option.getD_none, h]
  · rw [Memory.find_insert_self, Option.getD_some]

/-! ## The canonical form -/

theorem Memory.mem_insert {a : Nat} {x : Byte} {m : List Host.Cell} {p : Host.Cell}
    (h : p ∈ Memory.insert a x m) : p = (a, x) ∨ p ∈ m := by
  induction m with
  | nil => simpa [Memory.insert] using h
  | cons q m ih =>
    obtain ⟨b, y⟩ := q
    unfold Memory.insert at h
    split at h
    · simpa using h
    · split at h
      · rcases List.mem_cons.1 h with h | h
        · exact .inl h
        · exact .inr (List.mem_cons_of_mem _ h)
      · rcases List.mem_cons.1 h with h | h
        · exact .inr (h ▸ List.mem_cons_self ..)
        · exact (ih h).imp id (List.mem_cons_of_mem _)

theorem Memory.mem_erase {a : Nat} {m : List Host.Cell} {p : Host.Cell} (h : p ∈ Memory.erase a m) : p ∈ m := by
  induction m with
  | nil => exact h
  | cons q m ih =>
    obtain ⟨b, y⟩ := q
    unfold Memory.erase at h
    split at h
    · exact List.mem_cons_of_mem _ h
    · rcases List.mem_cons.1 h with h | h
      · exact h ▸ List.mem_cons_self ..
      · exact List.mem_cons_of_mem _ (ih h)

theorem Memory.pairwise_insert (a : Nat) (x : Byte) {m : List Host.Cell}
    (h : m.Pairwise (fun p q => p.1 < q.1)) : (Memory.insert a x m).Pairwise (fun p q => p.1 < q.1) := by
  induction m with
  | nil => simp [Memory.insert]
  | cons q m ih =>
    obtain ⟨b, y⟩ := q
    have h' := List.pairwise_cons.1 h
    unfold Memory.insert
    split
    · rename_i hlt
      refine List.pairwise_cons.2 ⟨fun p hp => ?_, h⟩
      rcases List.mem_cons.1 hp with hp | hp
      · rw [hp]; exact hlt
      · exact Nat.lt_trans hlt (h'.1 p hp)
    · split
      · rename_i heq
        exact List.pairwise_cons.2 ⟨fun p hp => by rw [heq]; exact h'.1 p hp, h'.2⟩
      · refine List.pairwise_cons.2 ⟨fun p hp => ?_, ih h'.2⟩
        rcases Memory.mem_insert hp with hp | hp
        · rw [hp]; show b < a; omega
        · exact h'.1 p hp

theorem Memory.pairwise_erase (a : Nat) {m : List Host.Cell} (h : m.Pairwise (fun p q => p.1 < q.1)) :
    (Memory.erase a m).Pairwise (fun p q => p.1 < q.1) := by
  induction m with
  | nil => exact h
  | cons q m ih =>
    obtain ⟨b, y⟩ := q
    have h' := List.pairwise_cons.1 h
    unfold Memory.erase
    split
    · exact h'.2
    · exact List.pairwise_cons.2 ⟨fun p hp => h'.1 p (Memory.mem_erase hp), ih h'.2⟩

theorem Memory.wf_nil (c : Config) : Memory.wf c [] := ⟨List.Pairwise.nil, fun _ h => nomatch h⟩

theorem Memory.write_wf {c : Config} {m : List Host.Cell} (hm : Memory.wf c m) {a : Nat} (x : Byte)
    (ha : a < memSize) : Memory.wf c (Memory.write c m a x) := by
  unfold Memory.write
  split
  · exact ⟨Memory.pairwise_erase a hm.1, fun p hp => hm.2 p (Memory.mem_erase hp)⟩
  · rename_i hx
    refine ⟨Memory.pairwise_insert a x hm.1, fun p hp => ?_⟩
    rcases Memory.mem_insert hp with hp | hp
    · rw [hp]; exact ⟨ha, hx⟩
    · exact hm.2 p hp

/-- In a canonical memory a listed address is found, and its byte is not what the address would read as. -/
theorem Memory.find_some_ne_blank {c : Config} {m : List Host.Cell} (hm : Memory.wf c m) {a : Nat} {x : Byte}
    (h : Memory.find m a = some x) : x ≠ Memory.blank c a := by
  obtain ⟨hp, hb⟩ := hm
  induction m with
  | nil => cases h
  | cons q m ih =>
    obtain ⟨b, y⟩ := q
    rw [Memory.find] at h
    split at h
    · rename_i e
      cases h
      rw [e]
      exact (hb (b, x) (List.mem_cons_self ..)).2
    · exact ih h (List.pairwise_cons.1 hp).2 (fun p hp => hb p (List.mem_cons_of_mem _ hp))

/-! ## Stores of several bytes -/

/-- A store leaves every address outside its range alone. -/
theorem State.readByte_storeBytes_outside (s : State) (base : Nat) (xs : List Byte) {a : Nat}
    (h : a < base ∨ base + xs.length ≤ a) : (s.storeBytes base xs).readByte a = s.readByte a := by
  induction xs generalizing s base with
  | nil => rfl
  | cons x xs ih =>
    rw [List.length_cons] at h
    rw [State.storeBytes, ih _ _ (by omega)]
    exact Memory.read_write_of_ne s.cfg s.mem x (by omega)

theorem State.storeBytes_wf {s : State} (hm : Memory.wf s.cfg s.mem) {base : Nat} {xs : List Byte}
    (h : base + xs.length ≤ memSize) :
    Memory.wf (s.storeBytes base xs).cfg (s.storeBytes base xs).mem := by
  induction xs generalizing s base with
  | nil => exact hm
  | cons x xs ih =>
    rw [List.length_cons] at h
    exact ih (s := s.writeByte base x) (Memory.write_wf hm x (by omega)) (by omega)

/-- After a store into a canonical memory, address `base + k` holds byte `k`. -/
theorem State.readByte_storeBytes_inside {s : State} (hm : Memory.wf s.cfg s.mem) {base : Nat}
    {xs : List Byte} (h : base + xs.length ≤ memSize) {k : Nat} (hk : k < xs.length) :
    (s.storeBytes base xs).readByte (base + k) = xs[k] := by
  induction xs generalizing s base k with
  | nil => cases hk
  | cons x xs ih =>
    rw [List.length_cons] at h hk
    have hw : Memory.wf (s.writeByte base x).cfg (s.writeByte base x).mem := Memory.write_wf hm x (by omega)
    cases k with
    | zero =>
      rw [State.storeBytes, State.readByte_storeBytes_outside _ _ _ (by omega)]
      exact Memory.read_write_self hm base x
    | succ k =>
      have := ih (s := s.writeByte base x) hw (base := base + 1) (by omega) (k := k) (by omega)
      rw [State.storeBytes, show base + (k + 1) = base + 1 + k by omega, this, List.getElem_cons_succ]

/-! ## Loads and stores with their bound check (20_memory.md R35) -/

theorem inRange_iff (base len : Nat) : inRange base len = true ↔ len = 0 ∨ base + len ≤ memSize := by
  simp [inRange]

/-- A load in range gives the bytes in ascending order; out of range it gives none. -/
theorem State.load_eq (s : State) (base len : Nat) :
    s.load base len = if len = 0 ∨ base + len ≤ memSize then
      some ((List.range len).map fun k => s.readByte (base + k)) else none := by
  unfold State.load
  simp only [inRange_iff]

/-- A store in range stores every byte; out of range it stores none. -/
theorem State.store_eq (s : State) (base : Nat) (xs : List Byte) :
    s.store base xs = if xs.length = 0 ∨ base + xs.length ≤ memSize then
      some (s.storeBytes base xs) else none := by
  unfold State.store
  simp only [inRange_iff]

/-- The fetch: both bytes inside memory, the byte at PC first (20_memory.md R32, R34). -/
theorem State.fetch_eq (s : State) :
    s.fetch = if s.pc.toNat + 2 ≤ memSize then
      some (s.readByte s.pc.toNat ++ s.readByte (s.pc.toNat + 1)) else none := by
  unfold State.fetch
  rw [State.load_eq]
  by_cases h : s.pc.toNat + 2 ≤ memSize
  · rw [if_pos (.inr h), if_pos h]; rfl
  · rw [if_neg (by omega), if_neg h]

end Sys2Proof.Machine
end

