-- ==== Sys2Proof/Laws/Screen.lean ====
section
/-! SUPPORT. The laws of the framebuffer: one pixel written and read back, and a blit as the list of the
pixels its 1-bits land on, plotted one after the other. -/

namespace Sys2Proof.Machine

theorem Screen.pixel_setPixel (fb : Screen) (r r' : Fin 32) (c c' : Fin 64) (b : Bool) :
    (fb.setPixel r c b).pixel r' c' = if r' = r ∧ c' = c then b else fb.pixel r' c' := by
  simp only [Screen.pixel, Screen.setPixel, Vector.get_eq_getElem, Vector.getElem_set, Fin.val_inj]
  by_cases hr : r = r'
  · subst hr
    by_cases hc : c = c'
    · simp [hc]
    · simp [hc, Ne.symm hc, Fin.val_inj]
  · simp [hr, Ne.symm hr]

@[simp] theorem Screen.pixel_clear (r : Fin 32) (c : Fin 64) : Screen.clear.pixel r c = false := by
  simp [Screen.pixel, Screen.clear, Vector.get_eq_getElem]

/-- Two framebuffers with the same pixels are the same. -/
theorem Screen.ext_pixel {f g : Screen} (h : ∀ r c, f.pixel r c = g.pixel r c) : f = g := by
  apply Vector.ext
  intro r hr
  apply Vector.ext
  intro c hc
  exact h ⟨r, hr⟩ ⟨c, hc⟩

theorem Blit.pixel_plot (b : Blit) (r r' : Fin 32) (c c' : Fin 64) :
    (b.plot r c).fb.pixel r' c' = if r' = r ∧ c' = c then !b.fb.pixel r c else b.fb.pixel r' c' := by
  rw [Blit.plot, Screen.pixel_setPixel, Bool.xor_true]

theorem Blit.hit_plot (b : Blit) (r : Fin 32) (c : Fin 64) :
    (b.plot r c).hit = (b.fb.pixel r c || b.hit) := rfl

/-- A pixel position. -/
abbrev Point := Fin 32 × Fin 64

/-- The positions the 1-bits of one sprite byte land on, leftmost first (43_display.md R132). -/
def bytePoints (vx : Nat) (r : Fin 32) (byte : Byte) : List Point :=
  ((List.range 8).filter fun k => byte.getLsbD (7 - k)).map fun k => (r, colIndex (vx + k))

/-- The positions the 1-bits of the sprite rows land on, from row number `row` on. -/
def rowPoints (vx vy : Nat) : Nat → List Byte → List Point
  | _, [] => []
  | row, byte :: rest => bytePoints vx (rowIndex (vy + row)) byte ++ rowPoints vx vy (row + 1) rest

/-- Plotting a list of positions in order. -/
def Blit.plotAll (b : Blit) (ps : List Point) : Blit := ps.foldl (fun b p => b.plot p.1 p.2) b

theorem Blit.plotAll_append (b : Blit) (ps qs : List Point) :
    b.plotAll (ps ++ qs) = (b.plotAll ps).plotAll qs := List.foldl_append

theorem Blit.byte_eq_plotAll (vx : Nat) (r : Fin 32) (b : Blit) (byte : Byte) :
    b.byte vx r byte = b.plotAll (bytePoints vx r byte) := by
  rw [Blit.byte, Blit.plotAll, bytePoints, List.foldl_map, List.foldl_filter]
  rfl

theorem Blit.rows_eq_plotAll (vx vy row : Nat) (rows : List Byte) (b : Blit) :
    Blit.rows vx vy row rows b = b.plotAll (rowPoints vx vy row rows) := by
  induction rows generalizing row b with
  | nil => rfl
  | cons byte rest ih => rw [Blit.rows, ih, Blit.byte_eq_plotAll, rowPoints, Blit.plotAll_append]

/-- The blitter plots the positions of the sprite's 1-bits, row by row. -/
theorem Screen.blit_eq_plotAll (fb : Screen) (vx vy : Nat) (rows : List Byte) :
    fb.blit vx vy rows = Blit.plotAll ⟨fb, false⟩ (rowPoints vx vy 0 rows) :=
  Blit.rows_eq_plotAll vx vy 0 rows ⟨fb, false⟩

end Sys2Proof.Machine
end

