-- ==== Sys2Proof/Laws/Step.lean ====
section
/-! SUPPORT. What one event does, by the head of the event list, and what the step cycle can end in. -/

namespace Sys2Proof.Machine

variable {s : State}

/-! ## The schedule -/

theorem upcoming_of_cons {e : Event} {es : List Event} (h : s.env.events = e :: es) : s.upcoming = e := by
  rw [State.upcoming, h]

theorem takeUpcoming_of_cons {e : Event} {es : List Event} (h : s.env.events = e :: es) :
    s.takeUpcoming = s.withEvents es := by
  rw [State.takeUpcoming, h]

theorem upcoming_of_gap_zero (h : s.env.events = []) (hk : s.env.stepsToTick = 0) : s.upcoming = .tick := by
  rw [State.upcoming, h]
  simp only [hk]

theorem takeUpcoming_of_gap_zero (h : s.env.events = []) (hk : s.env.stepsToTick = 0) :
    s.takeUpcoming = s.takeFreeTick := by
  rw [State.takeUpcoming, h]
  simp only [hk]

theorem upcoming_of_gap_succ {k : Nat} (h : s.env.events = []) (hk : s.env.stepsToTick = k + 1) :
    s.upcoming = .step (Config.freeKey s.env.draws) (Config.freeRnd s.env.draws) := by
  rw [State.upcoming, h]
  simp only [hk]

theorem takeUpcoming_of_gap_succ {k : Nat} (h : s.env.events = []) (hk : s.env.stepsToTick = k + 1) :
    s.takeUpcoming = s.takeFreeStep k := by
  rw [State.takeUpcoming, h]
  simp only [hk]

/-! ## By event -/

theorem step_eq (s : State) : step s = perform s.upcoming s.takeUpcoming := rfl

theorem step_of_step {key : Option Key} {rnd : Byte} {es : List Event} (h : s.env.events = .step key rnd :: es) :
    step s = if s.halted then .next (s.withEvents es) else interpret ((s.withEvents es).sample key rnd) := by
  rw [step_eq, upcoming_of_cons h, takeUpcoming_of_cons h]
  rfl

theorem step_of_free_step {k : Nat} (h : s.env.events = []) (hk : s.env.stepsToTick = k + 1) :
    step s = if s.halted then .next (s.takeFreeStep k)
      else interpret ((s.takeFreeStep k).sample (Config.freeKey s.env.draws) (Config.freeRnd s.env.draws)) := by
  rw [step_eq, upcoming_of_gap_succ h hk, takeUpcoming_of_gap_succ h hk]
  rfl

/-- A running block runs the step cycle. -/
theorem step_of_step_running {key : Option Key} {rnd : Byte} (h : s.upcoming = .step key rnd)
    (hr : s.halted = false) : step s = interpret (s.takeUpcoming.sample key rnd) := by
  rw [step_eq, h, perform, State.takeUpcoming_halted, hr, if_neg Bool.false_ne_true]

/-- A halted block takes the STEP from the schedule and does nothing else. -/
theorem step_of_step_halted {key : Option Key} {rnd : Byte} (h : s.upcoming = .step key rnd)
    (hr : s.halted = true) : step s = .next s.takeUpcoming := by
  rw [step_eq, h, perform, State.takeUpcoming_halted, hr, if_pos rfl]

theorem step_of_tick (h : s.upcoming = .tick) : step s = .next s.takeUpcoming.tick := by
  rw [step_eq, h, perform]

theorem step_of_reset {program : List Byte} {es : List Event} (h : s.env.events = .reset program :: es) :
    step s = if s.cfg.imageFits program then .next ((s.withEvents es).launch program)
      else .refused .imageTooLong := by
  rw [step_eq, upcoming_of_cons h, takeUpcoming_of_cons h]
  rfl

/-! ## The step cycle -/

theorem fetch_congr {s t : State} (hc : t.cfg = s.cfg) (hm : t.mem = s.mem) (hp : t.pc = s.pc) :
    t.fetch = s.fetch := by
  rw [State.fetch_eq, State.fetch_eq, hp, State.readByte_congr hc hm, State.readByte_congr hc hm]

/-- Taking a STEP from the schedule and sampling its inputs does not change what is fetched. -/
theorem fetch_sampled (s : State) (key : Option Key) (rnd : Byte) :
    (s.takeUpcoming.sample key rnd).fetch = s.fetch := fetch_congr (by simp) (by simp) (by simp)

theorem interpret_of_fetch_none (h : s.fetch = none) :
    interpret s = .next (s.raise .addressOutOfRange 0) := by
  rw [interpret, h]

theorem interpret_of_invalid {w : Word} {e : Reject} (h : s.fetch = some w) (hd : decodeWord w = .error e) :
    interpret s = .next (s.raise .invalidInstruction w) := by
  rw [interpret, h]
  simp only [hd]

theorem interpret_of_instr {w : Word} {i : Instr} (h : s.fetch = some w) (hd : decodeWord w = .ok i) :
    interpret s = exec i s := by
  rw [interpret, h]
  simp only [hd]

/-- What the step cycle can end in: a fatal condition of the fetch or of the decode, or what the instruction
at PC does, which is then inside memory. -/
theorem interpret_cases (s : State) :
    (s.fetch = none ∧ interpret s = .next (s.raise .addressOutOfRange 0)) ∨
    (∃ w, s.fetch = some w ∧ interpret s = .next (s.raise .invalidInstruction w)) ∨
    (∃ w i, s.fetch = some w ∧ decodeWord w = .ok i ∧ interpret s = exec i s) := by
  cases hf : s.fetch with
  | none => exact .inl ⟨rfl, interpret_of_fetch_none hf⟩
  | some w =>
    cases hd : decodeWord w with
    | error e => exact .inr (.inl ⟨w, rfl, interpret_of_invalid hf hd⟩)
    | ok i => exact .inr (.inr ⟨w, i, rfl, hd, interpret_of_instr hf hd⟩)

/-! ## RESET -/

/-- RESET leaves everything but memory at its reset value, and memory holding the program only. -/
theorem State.launch_fields (s : State) (program : List Byte) :
    (s.launch program).v = Vector.replicate 16 0 ∧ (s.launch program).i = 0 ∧
    (s.launch program).pc = BitVec.ofNat 16 s.cfg.loadBase ∧ (s.launch program).stack = [] ∧
    (s.launch program).dt = 0 ∧ (s.launch program).st = 0 ∧ (s.launch program).fb = Screen.clear ∧
    (s.launch program).halted = false ∧ (s.launch program).faultCode = 0 ∧
    (s.launch program).faultInstr = 0 ∧ (s.launch program).faultPc = 0 ∧
    (s.launch program).cfg = s.cfg ∧ (s.launch program).env = s.env := by
  simp [State.launch]

end Sys2Proof.Machine
end

