-- ==== Sys2Proof/Laws/Exec.lean ====
section
/-! SUPPORT. What an instruction can do, said once: it raises a fatal condition and changes nothing else, or
it leaves the halt flag, the fault record, the parameters and the model's own fields alone. -/

namespace Sys2Proof.Machine

/-- `t` has the halt flag, the fault record, the parameters and the model's own fields of `s`. -/
structure State.SameControl (s t : State) : Prop where
  halted     : t.halted = s.halted
  faultCode  : t.faultCode = s.faultCode
  faultInstr : t.faultInstr = s.faultInstr
  faultPc    : t.faultPc = s.faultPc
  cfg        : t.cfg = s.cfg
  env        : t.env = s.env

/-- A store in range gives the stored state, out of range it gives none. -/
theorem State.store_some {s t : State} {base : Nat} {xs : List Byte} (h : s.store base xs = some t) :
    t = s.storeBytes base xs ∧ (xs.length = 0 ∨ base + xs.length ≤ memSize) := by
  rw [State.store_eq] at h
  split at h
  · cases h; exact ⟨rfl, ‹_›⟩
  · cases h

theorem State.load_some {s : State} {base len : Nat} {xs : List Byte} (h : s.load base len = some xs) :
    xs = (List.range len).map (fun k => s.readByte (base + k)) ∧ (len = 0 ∨ base + len ≤ memSize) := by
  rw [State.load_eq] at h
  split at h
  · cases h; exact ⟨rfl, ‹_›⟩
  · cases h

theorem execRet_cases {s t : State} (h : execRet s = .next t) :
    (s.stack = [] ∧ t = s.raise .stackUnderflow (encode .ret)) ∨
    (∃ target rest, s.stack = target :: rest ∧ t = { s with stack := rest, pc := target }) := by
  unfold execRet at h
  split at h <;> cases h
  · exact .inl ⟨‹_›, rfl⟩
  · exact .inr ⟨_, _, ‹_›, rfl⟩

theorem execCall_cases {nnn : Addr12} {s t : State} (h : execCall nnn s = .next t) :
    (s.stackFull = true ∧ t = s.raise .stackOverflow (encode (.call nnn))) ∨
    (s.stackFull = false ∧ t = (s.push (s.pc + 2)).setPc (immAddr nnn)) := by
  unfold execCall at h
  split at h <;> cases h
  · exact .inl ⟨‹_›, rfl⟩
  · rename_i hf
    exact .inr ⟨Bool.eq_false_iff.2 hf, rfl⟩

theorem execLdB_cases {x : Reg} {s t : State} (h : execLdB x s = .next t) :
    t = s.raise .addressOutOfRange (encode (.ldB x)) ∨
    (s.i.toNat + 3 ≤ memSize ∧ t = s.advance.storeBytes s.i.toNat (decimalDigits (s.reg x))) := by
  unfold execLdB at h
  split at h <;> cases h
  · obtain ⟨rfl, hr⟩ := State.store_some ‹_›
    exact .inr ⟨hr.resolve_left (by simp [decimalDigits]), rfl⟩
  · exact .inl rfl

theorem State.length_regRun (s : State) (x : Reg) : (s.regRun x).length = x.val + 1 := by
  simp only [State.regRun, List.length_take, Vector.length_toList]
  omega

theorem execStRegs_cases {x : Reg} {s t : State} (h : execStRegs x s = .next t) :
    t = s.raise .addressOutOfRange (encode (.stRegs x)) ∨
    (s.i.toNat + (x.val + 1) ≤ memSize ∧ t = s.advance.storeBytes s.i.toNat (s.regRun x)) := by
  unfold execStRegs at h
  split at h <;> cases h
  · obtain ⟨rfl, hr⟩ := State.store_some ‹_›
    rw [State.length_regRun] at hr
    exact .inr ⟨hr.resolve_left (by omega), rfl⟩
  · exact .inl rfl

theorem execLdRegs_cases {x : Reg} {s t : State} (h : execLdRegs x s = .next t) :
    t = s.raise .addressOutOfRange (encode (.ldRegs x)) ∨
    (s.i.toNat + (x.val + 1) ≤ memSize ∧
      t = s.advance.setRegsFrom 0 ((List.range (x.val + 1)).map fun k => s.readByte (s.i.toNat + k))) := by
  unfold execLdRegs at h
  split at h <;> cases h
  · obtain ⟨rfl, hr⟩ := State.load_some ‹_›
    exact .inr ⟨hr.resolve_left (by omega), rfl⟩
  · exact .inl rfl

theorem execDrw_cases {x y : Reg} {n : Rows} {s t : State} (h : execDrw x y n s = .next t) :
    t = s.raise .addressOutOfRange (encode (.drw x y n)) ∨
    ((n.val = 0 ∨ s.i.toNat + n.val ≤ memSize) ∧
      ∃ b, b = s.fb.blit (s.reg x).toNat (s.reg y).toNat
          ((List.range n.val).map fun k => s.readByte (s.i.toNat + k)) ∧
        t = { s.advance with fb := b.fb }.setReg VF (flagByte b.hit)) := by
  unfold execDrw at h
  split at h <;> cases h
  · obtain ⟨rfl, hr⟩ := State.load_some ‹_›
    exact .inr ⟨hr, _, rfl, rfl⟩
  · exact .inl rfl

theorem execLdVxK_cases {x : Reg} {s t : State} (h : execLdVxK x s = .next t) :
    (s.env.key = none ∧ t = s) ∨
    (∃ k, s.env.key = some k ∧ t = s.advance.setReg x (BitVec.ofNat 8 k.val)) := by
  unfold execLdVxK at h
  cases hk : s.env.key with
  | none =>
    rw [hk] at h
    cases h
    refine .inl ⟨rfl, ?_⟩
    simp only [State.setPc, State.advance, BitVec.add_sub_cancel]
  | some k => rw [hk] at h; cases h; exact .inr ⟨k, rfl, rfl⟩

/-- The inversion lemma of `exec`. -/
theorem exec_cases {i : Instr} {s t : State} (h : exec i s = .next t) :
    (∃ f, t = s.raise f (encode i)) ∨ s.SameControl t := by
  cases i with
  | ret =>
    rcases execRet_cases h with ⟨_, e⟩ | ⟨_, _, _, rfl⟩
    · exact .inl ⟨_, e⟩
    · exact .inr ⟨rfl, rfl, rfl, rfl, rfl, rfl⟩
  | call nnn =>
    rcases execCall_cases h with ⟨_, e⟩ | ⟨_, rfl⟩
    · exact .inl ⟨_, e⟩
    · exact .inr ⟨rfl, rfl, rfl, rfl, rfl, rfl⟩
  | ldB x =>
    rcases execLdB_cases h with e | ⟨_, rfl⟩
    · exact .inl ⟨_, e⟩
    · exact .inr (by constructor <;> simp)
  | stRegs x =>
    rcases execStRegs_cases h with e | ⟨_, rfl⟩
    · exact .inl ⟨_, e⟩
    · exact .inr (by constructor <;> simp)
  | ldRegs x =>
    rcases execLdRegs_cases h with e | ⟨_, rfl⟩
    · exact .inl ⟨_, e⟩
    · exact .inr (by constructor <;> simp)
  | drw x y n =>
    rcases execDrw_cases h with e | ⟨_, _, _, rfl⟩
    · exact .inl ⟨_, e⟩
    · exact .inr (by constructor <;> simp)
  | ldVxK x =>
    rcases execLdVxK_cases h with ⟨_, rfl⟩ | ⟨_, _, rfl⟩
    · exact .inr ⟨rfl, rfl, rfl, rfl, rfl, rfl⟩
    · exact .inr ⟨rfl, rfl, rfl, rfl, rfl, rfl⟩
  | _ =>
    cases h
    exact .inr (by constructor <;> simp)

end Sys2Proof.Machine
end

