-- ==== Sys2Proof/Laws/PerInstr.lean ====
section
/-! SUPPORT. Facts about every instruction as syntax, one lemma per constructor. -/

namespace Sys2Proof.Laws.EncodingRow

/-- The word of an instruction has the fixed bits of the instruction's row, and the row is one of the 34 of
the opcode map (30_encoding.md R54). -/
def Statement (i : Instr) : Prop := i.row.selects (encode i) = true ∧ i.row ∈ opcodeTable

theorem cls : Statement .cls := ⟨by decide, by simp only [Instr.row]; decide⟩
theorem ret : Statement .ret := ⟨by decide, by simp only [Instr.row]; decide⟩
theorem jp (nnn : Addr12) : Statement (.jp nnn) := ⟨selects_ofNibbleAddr 0x1 nnn, by simp only [Instr.row]; decide⟩
theorem call (nnn : Addr12) : Statement (.call nnn) := ⟨selects_ofNibbleAddr 0x2 nnn, by simp only [Instr.row]; decide⟩
theorem seImm (x : Reg) (nn : Byte) : Statement (.seImm x nn) := ⟨selects_ofNibblesByte_op 0x3 (nibble x) nn, by simp only [Instr.row]; decide⟩
theorem sneImm (x : Reg) (nn : Byte) : Statement (.sneImm x nn) := ⟨selects_ofNibblesByte_op 0x4 (nibble x) nn, by simp only [Instr.row]; decide⟩
theorem seReg (x : Reg) (y : Reg) : Statement (.seReg x y) := ⟨selects_ofNibbles 0x5 (nibble x) (nibble y) 0x0, by simp only [Instr.row]; decide⟩
theorem ldImm (x : Reg) (nn : Byte) : Statement (.ldImm x nn) := ⟨selects_ofNibblesByte_op 0x6 (nibble x) nn, by simp only [Instr.row]; decide⟩
theorem addImm (x : Reg) (nn : Byte) : Statement (.addImm x nn) := ⟨selects_ofNibblesByte_op 0x7 (nibble x) nn, by simp only [Instr.row]; decide⟩
theorem ldReg (x : Reg) (y : Reg) : Statement (.ldReg x y) := ⟨selects_ofNibbles 0x8 (nibble x) (nibble y) 0x0, by simp only [Instr.row]; decide⟩
theorem orReg (x : Reg) (y : Reg) : Statement (.orReg x y) := ⟨selects_ofNibbles 0x8 (nibble x) (nibble y) 0x1, by simp only [Instr.row]; decide⟩
theorem andReg (x : Reg) (y : Reg) : Statement (.andReg x y) := ⟨selects_ofNibbles 0x8 (nibble x) (nibble y) 0x2, by simp only [Instr.row]; decide⟩
theorem xorReg (x : Reg) (y : Reg) : Statement (.xorReg x y) := ⟨selects_ofNibbles 0x8 (nibble x) (nibble y) 0x3, by simp only [Instr.row]; decide⟩
theorem addReg (x : Reg) (y : Reg) : Statement (.addReg x y) := ⟨selects_ofNibbles 0x8 (nibble x) (nibble y) 0x4, by simp only [Instr.row]; decide⟩
theorem subReg (x : Reg) (y : Reg) : Statement (.subReg x y) := ⟨selects_ofNibbles 0x8 (nibble x) (nibble y) 0x5, by simp only [Instr.row]; decide⟩
theorem shr (x : Reg) (y : Reg) : Statement (.shr x y) := ⟨selects_ofNibbles 0x8 (nibble x) (nibble y) 0x6, by simp only [Instr.row]; decide⟩
theorem subnReg (x : Reg) (y : Reg) : Statement (.subnReg x y) := ⟨selects_ofNibbles 0x8 (nibble x) (nibble y) 0x7, by simp only [Instr.row]; decide⟩
theorem shl (x : Reg) (y : Reg) : Statement (.shl x y) := ⟨selects_ofNibbles 0x8 (nibble x) (nibble y) 0xE, by simp only [Instr.row]; decide⟩
theorem sneReg (x : Reg) (y : Reg) : Statement (.sneReg x y) := ⟨selects_ofNibbles 0x9 (nibble x) (nibble y) 0x0, by simp only [Instr.row]; decide⟩
theorem ldI (nnn : Addr12) : Statement (.ldI nnn) := ⟨selects_ofNibbleAddr 0xA nnn, by simp only [Instr.row]; decide⟩
theorem jpV0 (nnn : Addr12) : Statement (.jpV0 nnn) := ⟨selects_ofNibbleAddr 0xB nnn, by simp only [Instr.row]; decide⟩
theorem rndImm (x : Reg) (nn : Byte) : Statement (.rndImm x nn) := ⟨selects_ofNibblesByte_op 0xC (nibble x) nn, by simp only [Instr.row]; decide⟩
theorem drw (x : Reg) (y : Reg) (n : Rows) : Statement (.drw x y n) := ⟨selects_ofNibbles_op 0xD (nibble x) (nibble y) (nibble n), by simp only [Instr.row]; decide⟩
theorem skp (x : Reg) : Statement (.skp x) := ⟨selects_ofNibblesByte 0xE (nibble x) 0x9E, by simp only [Instr.row]; decide⟩
theorem sknp (x : Reg) : Statement (.sknp x) := ⟨selects_ofNibblesByte 0xE (nibble x) 0xA1, by simp only [Instr.row]; decide⟩
theorem ldVxDt (x : Reg) : Statement (.ldVxDt x) := ⟨selects_ofNibblesByte 0xF (nibble x) 0x07, by simp only [Instr.row]; decide⟩
theorem ldVxK (x : Reg) : Statement (.ldVxK x) := ⟨selects_ofNibblesByte 0xF (nibble x) 0x0A, by simp only [Instr.row]; decide⟩
theorem ldDtVx (x : Reg) : Statement (.ldDtVx x) := ⟨selects_ofNibblesByte 0xF (nibble x) 0x15, by simp only [Instr.row]; decide⟩
theorem ldStVx (x : Reg) : Statement (.ldStVx x) := ⟨selects_ofNibblesByte 0xF (nibble x) 0x18, by simp only [Instr.row]; decide⟩
theorem addI (x : Reg) : Statement (.addI x) := ⟨selects_ofNibblesByte 0xF (nibble x) 0x1E, by simp only [Instr.row]; decide⟩
theorem ldF (x : Reg) : Statement (.ldF x) := ⟨selects_ofNibblesByte 0xF (nibble x) 0x29, by simp only [Instr.row]; decide⟩
theorem ldB (x : Reg) : Statement (.ldB x) := ⟨selects_ofNibblesByte 0xF (nibble x) 0x33, by simp only [Instr.row]; decide⟩
theorem stRegs (x : Reg) : Statement (.stRegs x) := ⟨selects_ofNibblesByte 0xF (nibble x) 0x55, by simp only [Instr.row]; decide⟩
theorem ldRegs (x : Reg) : Statement (.ldRegs x) := ⟨selects_ofNibblesByte 0xF (nibble x) 0x65, by simp only [Instr.row]; decide⟩

end Sys2Proof.Laws.EncodingRow
end

