-- ==== Sys2Proof/Laws/Schedule.lean ====
section
/-! SUPPORT. What one step does to the schedule: the list of events gets shorter, and with no event listed the
free schedule comes to its TICK (60_exceptions.md R174). -/

namespace Sys2Proof.Machine

/-- The step cycle leaves the model's own fields alone. -/
theorem interpret_env {s t : State} (h : interpret s = .next t) : t.env = s.env := by
  rcases interpret_cases s with ⟨_, e⟩ | ⟨_, _, e⟩ | ⟨_, i, _, _, e⟩ <;> rw [e] at h
  · cases h; rfl
  · cases h; rfl
  · rcases exec_cases h with ⟨_, rfl⟩ | hc
    · rfl
    · exact hc.env

/-- No event changes the schedule that comes after it. -/
theorem perform_schedule {e : Event} {s t : State} (h : perform e s = .next t) :
    t.env.events = s.env.events ∧ t.env.stepsToTick = s.env.stepsToTick ∧
      t.env.ticksDrawn = s.env.ticksDrawn := by
  cases e with
  | step key rnd =>
    rw [perform] at h
    split at h
    · cases h; exact ⟨rfl, rfl, rfl⟩
    · rw [interpret_env h]; exact ⟨rfl, rfl, rfl⟩
  | tick => cases h; exact ⟨rfl, rfl, rfl⟩
  | reset program =>
    rw [perform] at h
    split at h
    · cases h
      rw [(State.launch_fields s program).2.2.2.2.2.2.2.2.2.2.2.2]
      exact ⟨rfl, rfl, rfl⟩
    · cases h

/-- A step takes one event from the list. -/
theorem step_events {s t : State} (h : step s = .next t) : t.env.events = s.env.events.tail := by
  rw [step_eq] at h
  rw [(perform_schedule h).1]
  cases he : s.env.events with
  | cons e es => rw [takeUpcoming_of_cons he]; rfl
  | nil =>
    cases hk : s.env.stepsToTick with
    | zero => rw [takeUpcoming_of_gap_zero he hk]; exact he
    | succ k => rw [takeUpcoming_of_gap_succ he hk]; exact he

/-- With no event listed, a step that is no TICK brings the TICK one step nearer. -/
theorem step_nears_tick {s t : State} (h : step s = .next t) (he : s.env.events = [])
    (hu : s.upcoming ≠ .tick) : t.env.stepsToTick + 1 = s.env.stepsToTick := by
  cases hk : s.env.stepsToTick with
  | zero => exact absurd (upcoming_of_gap_zero he hk) hu
  | succ k =>
    rw [step_eq, takeUpcoming_of_gap_succ he hk] at h
    rw [(perform_schedule h).2.1]
    rfl

/-- With no event listed, the schedule comes to no RESET. -/
theorem upcoming_ne_reset {s : State} (he : s.env.events = []) (program : List Byte) :
    s.upcoming ≠ .reset program := by
  cases hk : s.env.stepsToTick with
  | zero => rw [upcoming_of_gap_zero he hk]; exact nofun
  | succ k => rw [upcoming_of_gap_succ he hk]; exact nofun

/-- A halted block with no event listed goes on, halted. -/
theorem step_of_halted {s : State} (he : s.env.events = []) (hh : s.halted = true) :
    ∃ t, step s = .next t ∧ t.env.events = [] ∧ t.halted = true ∧ (s.upcoming ≠ .tick → t.dt = s.dt ∧ t.st = s.st) := by
  cases hu : s.upcoming with
  | tick =>
    refine ⟨_, step_of_tick hu, ?_, by simp [hh], fun h => absurd rfl h⟩
    rw [step_events (step_of_tick hu), he, List.tail_nil]
  | step key rnd =>
    refine ⟨_, step_of_step_halted hu hh, ?_, by simp [hh], fun _ => ⟨by simp, by simp⟩⟩
    rw [step_events (step_of_step_halted hu hh), he, List.tail_nil]
  | reset program => exact absurd hu (upcoming_ne_reset he program)

end Sys2Proof.Machine
end

