-- ==== Sys2Proof/Machine/Assembly.lean ====
section
/-! DEFINITION. The assembler form of an instruction, for readers and tools only: no rule of the machine
depends on it (30_encoding.md R59 to R61, decision D20, log 32). -/

namespace Sys2Proof.Machine

/-- One hexadecimal digit. -/
def hexDigit (d : Fin 16) : String :=
  ["0", "1", "2", "3", "4", "5", "6", "7", "8", "9", "A", "B", "C", "D", "E", "F"].getD d.val "0"

/-- `V0` .. `VF`. -/
def regText (x : Reg) : String := "V" ++ hexDigit x

/-- An 8-bit immediate as a numeral. -/
def byteText (nn : Byte) : String :=
  "0x" ++ hexDigit (nn.extractLsb 7 4).toFin ++ hexDigit (nn.extractLsb 3 0).toFin

/-- A 12-bit immediate as a numeral. -/
def addrText (nnn : Addr12) : String :=
  "0x" ++ hexDigit (nnn.extractLsb 11 8).toFin ++ hexDigit (nnn.extractLsb 7 4).toFin
    ++ hexDigit (nnn.extractLsb 3 0).toFin

/-- The mnemonic column of 30_encoding.md R54 with the operands filled in; a shift does not show its ignored
field `y`. -/
def assemblyText : Instr → String
  | .cls => "CLS"
  | .ret => "RET"
  | .jp nnn => "JP " ++ addrText nnn
  | .call nnn => "CALL " ++ addrText nnn
  | .seImm x nn => "SE " ++ regText x ++ ", " ++ byteText nn
  | .sneImm x nn => "SNE " ++ regText x ++ ", " ++ byteText nn
  | .seReg x y => "SE " ++ regText x ++ ", " ++ regText y
  | .ldImm x nn => "LD " ++ regText x ++ ", " ++ byteText nn
  | .addImm x nn => "ADD " ++ regText x ++ ", " ++ byteText nn
  | .ldReg x y => "LD " ++ regText x ++ ", " ++ regText y
  | .orReg x y => "OR " ++ regText x ++ ", " ++ regText y
  | .andReg x y => "AND " ++ regText x ++ ", " ++ regText y
  | .xorReg x y => "XOR " ++ regText x ++ ", " ++ regText y
  | .addReg x y => "ADD " ++ regText x ++ ", " ++ regText y
  | .subReg x y => "SUB " ++ regText x ++ ", " ++ regText y
  | .shr x _ => "SHR " ++ regText x
  | .subnReg x y => "SUBN " ++ regText x ++ ", " ++ regText y
  | .shl x _ => "SHL " ++ regText x
  | .sneReg x y => "SNE " ++ regText x ++ ", " ++ regText y
  | .ldI nnn => "LD I, " ++ addrText nnn
  | .jpV0 nnn => "JP V0, " ++ addrText nnn
  | .rndImm x nn => "RND " ++ regText x ++ ", " ++ byteText nn
  | .drw x y n => "DRW " ++ regText x ++ ", " ++ regText y ++ ", 0x" ++ hexDigit n
  | .skp x => "SKP " ++ regText x
  | .sknp x => "SKNP " ++ regText x
  | .ldVxDt x => "LD " ++ regText x ++ ", DT"
  | .ldVxK x => "LD " ++ regText x ++ ", K"
  | .ldDtVx x => "LD DT, " ++ regText x
  | .ldStVx x => "LD ST, " ++ regText x
  | .addI x => "ADD I, " ++ regText x
  | .ldF x => "LD F, " ++ regText x
  | .ldB x => "LD B, " ++ regText x
  | .stRegs x => "LD [I], " ++ regText x
  | .ldRegs x => "LD " ++ regText x ++ ", [I]"

/-- The instruction that the assembler form stands for: a shift with `y = 0` (R61), every other instruction
itself. -/
def canonicalForm : Instr → Instr
  | .shr x _ => .shr x 0
  | .shl x _ => .shl x 0
  | .cls => .cls
  | .ret => .ret
  | .jp nnn => .jp nnn
  | .call nnn => .call nnn
  | .seImm x nn => .seImm x nn
  | .sneImm x nn => .sneImm x nn
  | .seReg x y => .seReg x y
  | .ldImm x nn => .ldImm x nn
  | .addImm x nn => .addImm x nn
  | .ldReg x y => .ldReg x y
  | .orReg x y => .orReg x y
  | .andReg x y => .andReg x y
  | .xorReg x y => .xorReg x y
  | .addReg x y => .addReg x y
  | .subReg x y => .subReg x y
  | .subnReg x y => .subnReg x y
  | .sneReg x y => .sneReg x y
  | .ldI nnn => .ldI nnn
  | .jpV0 nnn => .jpV0 nnn
  | .rndImm x nn => .rndImm x nn
  | .drw x y n => .drw x y n
  | .skp x => .skp x
  | .sknp x => .sknp x
  | .ldVxDt x => .ldVxDt x
  | .ldVxK x => .ldVxK x
  | .ldDtVx x => .ldDtVx x
  | .ldStVx x => .ldStVx x
  | .addI x => .addI x
  | .ldF x => .ldF x
  | .ldB x => .ldB x
  | .stRegs x => .stRegs x
  | .ldRegs x => .ldRegs x

end Sys2Proof.Machine
end

