-- ==== Sys2Proof/Tests/Slice0.lean ====
section
/-! SUPPORT. Tests. Every expected value comes from the spec: a vector of 95_test_vectors.md (named by its
number), the example of an instruction's rule, or a word written out bit by bit from the opcode map. -/

namespace Sys2Proof.Tests

open Sys2Proof.Machine

/-- The outcome is a next state with this property. -/
def after (o : Host.Outcome State Fault Refusal) (p : State → Bool) : Bool :=
  match o with
  | .next t => p t
  | .fault _ => false
  | .refused _ => false

/-- One step of `s` with the word `w` at its PC. -/
def runWord (w : Nat) (s : State) : Host.Outcome State Fault Refusal := step (s.withFetchWord 16 w)

/-- The reset state with some registers set. -/
def withRegs (rs : List (Reg × Byte)) : State := rs.foldl (fun s p => s.setReg p.1 p.2) State.reset

/-- A state whose next event is a STEP with these inputs. -/
def withInputs (key : Option Key) (rnd : Byte) (s : State) : State := s.withEvents [.step key rnd]

/-! ## WellFormed: each check refuses an ill-formed term -/

theorem test_wellFormed_default : defaultConfig.launchWellFormed [0xA2, 0x2A] = true := by decide
theorem test_wellFormed_refuses_font_past_memory :
    { defaultConfig with fontBase := 4017 }.fontFits = false := by decide
theorem test_wellFormed_refuses_load_past_memory :
    { defaultConfig with loadBase := 4095 }.loadFits = false := by decide
theorem test_wellFormed_refuses_config :
    { defaultConfig with loadBase := 4095 }.wellFormed = false := by decide
theorem test_wellFormed_refuses_long_image :
    { defaultConfig with loadBase := 4094 }.imageFits [0x12, 0x00, 0x00] = false := by decide
theorem test_wellFormed_refuses_overlap :
    { defaultConfig with loadBase := 78 }.imageDisjoint [0x12, 0x00] = false := by decide
theorem test_wellFormed_refuses_launch :
    { defaultConfig with loadBase := 78 }.launchWellFormed [0x12, 0x00] = false := by decide
theorem test_wellFormed_instr : Instr.wellFormed (.shr 3 7) = true := by decide

/-! ## Decode: one word of every constructor, written out from the patterns of 30_encoding.md R54 -/

theorem test_decode_00E0 : decodeWord 0b0000000011100000 = .ok .cls := by decide
theorem test_decode_00EE : decodeWord 0b0000000011101110 = .ok .ret := by decide
theorem test_decode_1nnn : decodeWord 0b0001001000000100 = .ok (.jp 0x204) := by decide
theorem test_decode_2nnn : decodeWord 0b0010001000001010 = .ok (.call 0x20A) := by decide
theorem test_decode_3xnn : decodeWord 0b0011011010100101 = .ok (.seImm 6 0xA5) := by decide
theorem test_decode_4xnn : decodeWord 0b0100000100000101 = .ok (.sneImm 1 0x05) := by decide
theorem test_decode_5xy0 : decodeWord 0b0101001000110000 = .ok (.seReg 2 3) := by decide
theorem test_decode_6xnn : decodeWord 0b0110000000000101 = .ok (.ldImm 0 0x05) := by decide
theorem test_decode_7xnn : decodeWord 0b0111000100000010 = .ok (.addImm 1 0x02) := by decide
theorem test_decode_8xy0 : decodeWord 0b1000001000110000 = .ok (.ldReg 2 3) := by decide
theorem test_decode_8xy1 : decodeWord 0b1000101010110001 = .ok (.orReg 10 11) := by decide
theorem test_decode_8xy2 : decodeWord 0b1000101010110010 = .ok (.andReg 10 11) := by decide
theorem test_decode_8xy3 : decodeWord 0b1000101010110011 = .ok (.xorReg 10 11) := by decide
theorem test_decode_8xy4 : decodeWord 0b1000101010110100 = .ok (.addReg 10 11) := by decide
theorem test_decode_8xy5 : decodeWord 0b1000101010110101 = .ok (.subReg 10 11) := by decide
theorem test_decode_8xy6 : decodeWord 0b1000001001110110 = .ok (.shr 2 7) := by decide
theorem test_decode_8xy7 : decodeWord 0b1000101010110111 = .ok (.subnReg 10 11) := by decide
theorem test_decode_8xyE : decodeWord 0b1000001001111110 = .ok (.shl 2 7) := by decide
theorem test_decode_9xy0 : decodeWord 0b1001001000110000 = .ok (.sneReg 2 3) := by decide
theorem test_decode_Annn : decodeWord 0b1010001000101010 = .ok (.ldI 0x22A) := by decide
theorem test_decode_Bnnn : decodeWord 0b1011001100000000 = .ok (.jpV0 0x300) := by decide
theorem test_decode_Cxnn : decodeWord 0b1100000100001111 = .ok (.rndImm 1 0x0F) := by decide
theorem test_decode_Dxyn : decodeWord 0b1101000000010010 = .ok (.drw 0 1 2) := by decide
theorem test_decode_Ex9E : decodeWord 0b1110010110011110 = .ok (.skp 5) := by decide
theorem test_decode_ExA1 : decodeWord 0b1110010110100001 = .ok (.sknp 5) := by decide
theorem test_decode_Fx07 : decodeWord 0b1111000100000111 = .ok (.ldVxDt 1) := by decide
theorem test_decode_Fx0A : decodeWord 0b1111001100001010 = .ok (.ldVxK 3) := by decide
theorem test_decode_Fx15 : decodeWord 0b1111000000010101 = .ok (.ldDtVx 0) := by decide
theorem test_decode_Fx18 : decodeWord 0b1111001000011000 = .ok (.ldStVx 2) := by decide
theorem test_decode_Fx1E : decodeWord 0b1111000000011110 = .ok (.addI 0) := by decide
theorem test_decode_Fx29 : decodeWord 0b1111001100101001 = .ok (.ldF 3) := by decide
theorem test_decode_Fx33 : decodeWord 0b1111000000110011 = .ok (.ldB 0) := by decide
theorem test_decode_Fx55 : decodeWord 0b1111001001010101 = .ok (.stRegs 2) := by decide
theorem test_decode_Fx65 : decodeWord 0b1111001001100101 = .ok (.ldRegs 2) := by decide

/-- The invalid words of 95_test_vectors.md 2.6 and 2.2-ak, 2.2-al, 2.3-s, 2.5-s. -/
theorem test_decode_refuses_invalid_words :
    [0x0000, 0x00E1, 0x01E0, 0x0123, 0x5011, 0x9AB1, 0xE19F, 0xF075, 0x8018, 0x801F, 0xF000, 0xE000].all
      (fun w => decodeWord w == .error (.invalidInstruction w)) = true := by decide

theorem test_decode_bytes_high_first : decode [0xA2, 0x2A, 0x60] = .ok (.ldI 0x22A, [0x60]) := by decide
theorem test_decode_refuses_one_byte : decode [0xA2] = .error .truncated := by decide
theorem test_decodeTableWord : decodeTableWord 16 0x8AB4 = some (.addReg 10 11) := by decide

theorem test_assembly_drw : assemblyText (.drw 0 1 2) = "DRW V0, V1, 0x2" := by decide
theorem test_assembly_shift_word : encode (canonicalForm (.shr 2 7)) = 0x8206 := by decide

/-! ## Control flow (95_test_vectors.md 2.1) -/

theorem test_jp_2_1_a : after (runWord 0x1204 (State.reset.setPc 0x20A)) (fun t => t.pc == 0x204) = true := by
  decide
theorem test_call_2_1_c : after (runWord 0x220A (State.reset.setPc 0x204))
    (fun t => t.pc == 0x20A && t.stack == [0x206]) = true := by decide
theorem test_call_on_full_stack_overflows : after
    (runWord 0x220A { State.reset with cfg := { defaultConfig with stackDepth := some 1 }, stack := [0x300] })
    (fun t => t.halted && t.faultCode == 4 && t.faultInstr == 0x220A && t.faultPc == 0x200 && t.pc == 0x200
      && t.stack == [0x300]) = true := by decide
theorem test_ret_2_1_d : after (runWord 0x00EE ((State.reset.push 0x206).setPc 0x20C))
    (fun t => t.pc == 0x206 && t.stack == []) = true := by decide
theorem test_ret_2_1_e : after (runWord 0x00EE State.reset) (fun t => t.halted && t.faultCode == 2
    && t.faultInstr == 0x00EE && t.faultPc == 0x200 && t.pc == 0x200) = true := by decide
theorem test_seImm_2_1_f : after (runWord 0x3000 (State.reset.setPc 0x208)) (fun t => t.pc == 0x20C) = true := by
  decide
theorem test_seImm_2_1_g : after (runWord 0x3000 ((withRegs [(0, 1)]).setPc 0x208))
    (fun t => t.pc == 0x20A) = true := by decide
theorem test_sneImm_2_1_h : after (runWord 0x4105 ((withRegs [(1, 5)]).setPc 0x300))
    (fun t => t.pc == 0x302) = true := by decide
theorem test_sneImm_2_1_i : after (runWord 0x4106 ((withRegs [(1, 5)]).setPc 0x300))
    (fun t => t.pc == 0x304) = true := by decide
theorem test_seReg_2_1_j : after (runWord 0x5230 ((withRegs [(2, 0x7F), (3, 0x7F)]).setPc 0x210))
    (fun t => t.pc == 0x214) = true := by decide
theorem test_seReg_2_1_k : after (runWord 0x5230 ((withRegs [(2, 1), (3, 2)]).setPc 0x210))
    (fun t => t.pc == 0x212) = true := by decide
theorem test_sneReg_2_1_m : after (runWord 0x9230 ((withRegs [(2, 1), (3, 2)]).setPc 0x210))
    (fun t => t.pc == 0x214) = true := by decide
theorem test_sneReg_2_1_n : after (runWord 0x9440 (State.reset.setPc 0x210)) (fun t => t.pc == 0x212) = true := by
  decide
theorem test_jpV0_2_1_p : after (runWord 0xBFFF (withRegs [(0, 0xFF)])) (fun t => t.pc == 0x10FE && !t.halted)
    = true := by decide
theorem test_fetch_2_1_r : after (step (withInputs none 0 (State.reset.setPc 0xFFF)))
    (fun t => t.halted && t.faultCode == 3 && t.faultInstr == 0 && t.faultPc == 0xFFF && t.pc == 0xFFF
      && t.faultAddress == some 4096) = true := by decide
theorem test_fetch_odd_2_1_s : after (runWord 0x612A (State.reset.setPc 0x201))
    (fun t => t.reg 1 == 0x2A && t.pc == 0x203) = true := by decide
theorem test_skip_2_1_q : after (runWord 0x3000 (State.reset.setPc 0xFFE))
    (fun t => t.pc == 0x1002 && !t.halted) = true := by decide

/-! ## Load and ALU (95_test_vectors.md 2.2) -/

theorem test_ldImm_2_2_b : after (runWord 0x6FAB State.reset) (fun t => t.reg VF == 0xAB) = true := by decide
theorem test_addImm_2_2_c : after (runWord 0x7102 (withRegs [(1, 0xFF)]))
    (fun t => t.reg 1 == 1 && t.reg VF == 0) = true := by decide
theorem test_ldReg_2_2_e : after (runWord 0x8230 (withRegs [(3, 0xAB)])) (fun t => t.reg 2 == 0xAB) = true := by
  decide
theorem test_orReg_2_2_f : after (runWord 0x8011 (withRegs [(0, 0xF0), (1, 0x0F), (VF, 7)]))
    (fun t => t.reg 0 == 0xFF && t.reg VF == 7) = true := by decide
theorem test_andReg_2_2_g : after (runWord 0x8012 (withRegs [(0, 0xF0), (1, 0x3C)]))
    (fun t => t.reg 0 == 0x30) = true := by decide
theorem test_xorReg_2_2_h : after (runWord 0x8013 (withRegs [(0, 0xF0), (1, 0x3C)]))
    (fun t => t.reg 0 == 0xCC) = true := by decide
theorem test_addReg_2_2_m : after (runWord 0x8014 (withRegs [(0, 0xFF), (1, 0xFF)]))
    (fun t => t.reg 0 == 0xFE && t.reg VF == 1) = true := by decide
theorem test_addReg_2_2_o : after (runWord 0x8F14 (withRegs [(VF, 0xF0), (1, 0x20)]))
    (fun t => t.reg VF == 0x10) = true := by decide
theorem test_subReg_2_2_s : after (runWord 0x8015 (withRegs [(0, 7), (1, 7), (VF, 1)]))
    (fun t => t.reg 0 == 0 && t.reg VF == 0) = true := by decide
theorem test_subReg_2_2_u : after (runWord 0x80F5 (withRegs [(0, 9), (VF, 4)]))
    (fun t => t.reg 0 == 5 && t.reg VF == 1) = true := by decide
theorem test_shr_2_2_x : after (runWord 0x8276 (withRegs [(2, 5), (7, 0xFF)]))
    (fun t => t.reg 2 == 2 && t.reg VF == 1 && t.reg 7 == 0xFF) = true := by decide
theorem test_shr_2_2_z : after (runWord 0x8F06 (withRegs [(VF, 2)])) (fun t => t.reg VF == 0) = true := by decide
theorem test_subnReg_2_2_ab : after (runWord 0x8017 (withRegs [(0, 5), (1, 3)]))
    (fun t => t.reg 0 == 0xFE && t.reg VF == 0) = true := by decide
theorem test_subnReg_2_2_ae : after (runWord 0x80F7 (withRegs [(0, 4), (VF, 9)]))
    (fun t => t.reg 0 == 5 && t.reg VF == 1) = true := by decide
theorem test_shl_2_2_af : after (runWord 0x820E (withRegs [(2, 0x81)]))
    (fun t => t.reg 2 == 2 && t.reg VF == 1) = true := by decide
theorem test_shl_2_2_aj : after (runWord 0x8F0E (withRegs [(VF, 0x40)])) (fun t => t.reg VF == 0) = true := by
  decide

/-! ## Index and memory (95_test_vectors.md 2.3) -/

theorem test_ldI_2_3_a : after (runWord 0xA22A State.reset) (fun t => t.i == 0x22A) = true := by decide
theorem test_addI_2_3_c : after (runWord 0xF01E ((withRegs [(0, 0x10)]).setIndex 0xFF0))
    (fun t => t.i == 0x1000 && t.reg VF == 1) = true := by decide
theorem test_addI_2_3_d : after (runWord 0xF01E ((withRegs [(0, 1), (VF, 1)]).setIndex 0x100))
    (fun t => t.i == 0x101 && t.reg VF == 1) = true := by decide
theorem test_ldF_2_3_h : after (runWord 0xF329 (withRegs [(3, 0x1A)])) (fun t => t.i == 0x32) = true := by decide
theorem test_ldF_2_3_i : after
    (runWord 0xF329 { withRegs [(3, 0x0F)] with cfg := { defaultConfig with fontBase := 0x50 } })
    (fun t => t.i == 0x9B) = true := by decide
theorem test_ldB_2_3_m : after (runWord 0xF033 ((withRegs [(0, 0x7B)]).setIndex 0xFFD))
    (fun t => [t.readByte 0xFFD, t.readByte 0xFFE, t.readByte 0xFFF] == [1, 2, 3]) = true := by decide
theorem test_ldB_2_3_n : after (runWord 0xF033 ((withRegs [(0, 0x7B)]).setIndex 0xFFE))
    (fun t => t.halted && t.faultCode == 3 && t.faultInstr == 0xF033 && t.readByte 0xFFE == 0
      && t.readByte 0xFFF == 0 && t.faultAddress == some 4096) = true := by decide
theorem test_stRegs_R114 : after (runWord 0xF255 ((withRegs [(0, 0x11), (1, 0x22), (2, 0x33), (3, 0x44)]).setIndex 0x300))
    (fun t => [t.readByte 0x300, t.readByte 0x301, t.readByte 0x302, t.readByte 0x303] == [0x11, 0x22, 0x33, 0]
      && t.i == 0x300) = true := by decide
theorem test_stRegs_2_3_o : after (runWord 0xFF55 (State.reset.setIndex 0xFF1))
    (fun t => t.halted && t.faultCode == 3 && t.readByte 0xFF1 == 0) = true := by decide
theorem test_ldRegs_R115 : after
    (runWord 0xF265 (((withRegs [(3, 9)]).storeBytes 0x300 [0x01, 0x05, 0x07, 0x08]).setIndex 0x300))
    (fun t => [t.reg 0, t.reg 1, t.reg 2, t.reg 3] == [0x01, 0x05, 0x07, 0x09] && t.i == 0x300) = true := by decide
theorem test_ldRegs_2_3_r : after (runWord 0xF065 ((withRegs [(0, 9)]).setIndex 0x1000))
    (fun t => t.halted && t.faultCode == 3 && t.reg 0 == 9) = true := by decide

/-! ## Display (95_test_vectors.md 2.4) -/

theorem test_cls_2_4_a : after (runWord 0x00E0 { withRegs [(VF, 1)] with fb := Screen.clear.setPixel 3 4 true })
    (fun t => t.fb == Screen.clear && t.reg VF == 1) = true := by decide
theorem test_drw_2_4_b : after
    (runWord 0xD011 (((withRegs [(0, 62)]).storeBytes 0x300 [0xFF]).setIndex 0x300))
    (fun t => (List.finRange 64).all (fun c => t.fbRead 0 c == decide (c.val ∈ [62, 63, 0, 1, 2, 3, 4, 5]))
      && t.reg VF == 0) = true := by decide
theorem test_drw_2_4_f : after (runWord 0xD011
      (({ State.reset with fb := Screen.clear.setPixel 0 0 true }.storeBytes 0x300 [0xC0]).setIndex 0x300))
    (fun t => !t.fbRead 0 0 && t.fbRead 0 1 && t.reg VF == 1) = true := by decide
theorem test_fbRdata_row_major : ({ State.reset with fb := Screen.clear.setPixel 4 8 true }).fbRdata 264 = true := by
  decide

/-! ## Random, keypad, timers (95_test_vectors.md 2.5) -/

theorem test_rndImm_2_5_a : after (runWord 0xC10F (withInputs none 0xA7 State.reset)) (fun t => t.reg 1 == 7)
    = true := by decide
theorem test_skp_2_5_d : after (runWord 0xE09E (withInputs (some 5) 0 (withRegs [(0, 5)]))) (fun t => t.pc == 0x204)
    = true := by decide
theorem test_skp_2_5_g : after (runWord 0xE09E (withInputs (some 5) 0 (withRegs [(0, 0x15)])))
    (fun t => t.pc == 0x202) = true := by decide
theorem test_sknp_2_5_h : after (runWord 0xE0A1 (withInputs (some 5) 0 (withRegs [(0, 5)]))) (fun t => t.pc == 0x202)
    = true := by decide
theorem test_sknp_2_5_i : after (runWord 0xE0A1 (withInputs none 0 (withRegs [(0, 5)]))) (fun t => t.pc == 0x204)
    = true := by decide
theorem test_ldVxDt_2_5_m : after (runWord 0xF107 { State.reset with dt := 3 }) (fun t => t.reg 1 == 3) = true := by
  decide
theorem test_ldVxK_2_5_k : after (runWord 0xF30A (withInputs none 0 ((withRegs [(3, 0x77)]).setPc 0x210)))
    (fun t => t.pc == 0x210 && t.reg 3 == 0x77) = true := by decide
theorem test_ldVxK_2_5_l : after (runWord 0xF30A (withInputs (some 0xB) 0 (State.reset.setPc 0x210)))
    (fun t => t.pc == 0x212 && t.reg 3 == 0x0B) = true := by decide
theorem test_ldDtVx_2_5_n : after (runWord 0xF015 (withRegs [(0, 5)])) (fun t => t.dt == 5 && t.st == 0) = true := by
  decide
theorem test_ldStVx_2_5_p : after (runWord 0xF218 (withRegs [(2, 2)]))
    (fun t => t.st == 2 && t.dt == 0 && t.env.tones == 0) = true := by decide
theorem test_tick_2_5_q : after (step { State.reset.withEvents [.tick] with dt := 1, st := 1 })
    (fun t => t.dt == 0 && t.st == 0 && t.env.tones == 1) = true := by decide
theorem test_tick_2_5_o : after (step (State.reset.withEvents [.tick]))
    (fun t => t.dt == 0 && t.st == 0 && t.env.tones == 0) = true := by decide
theorem test_tick_2_5_t : after (step { State.reset.withEvents [.tick] with dt := 2, halted := true })
    (fun t => t.dt == 1 && t.halted) = true := by decide
theorem test_step_2_5_u : after (step { State.reset.withEvents [.step (some 1) 2] with halted := true })
    (fun t => t == { State.reset with halted := true }) = true := by decide
theorem test_invalid_2_2_ak : after (runWord 0x8018 State.reset)
    (fun t => t.halted && t.faultCode == 1 && t.faultInstr == 0x8018 && t.pc == 0x200) = true := by decide

/-! ## Reset and program load -/

/-- P1 of 95_test_vectors.md: RESET with `A2 2A 60 05`, then two STEPs. -/
theorem test_program_P1 : after (Host.Core.run Sys2Proof.core 3
      (State.reset.withEvents [.reset [0xA2, 0x2A, 0x60, 0x05], .step none 0, .step none 0]))
    (fun t => t.i == 0x22A && t.reg 0 == 5 && t.pc == 0x204) = true := by decide
theorem test_reset_clears_halt : after (step { State.reset.withEvents [.reset [0x12]] with
      halted := true, faultCode := 3, dt := 9 })
    (fun t => !t.halted && t.faultCode == 0 && t.dt == 0 && t.readByte 0x200 == 0x12 && t.readByte 5 == 0x20)
    = true := by decide

/-- A RESET whose image does not fit is refused by name (70_reset_and_hazards.md R191). -/
theorem test_reset_refuses_long_image :
    (match step ({ State.reset with cfg := { defaultConfig with loadBase := 4094 } }.withEvents
        [.reset [0x12, 0x00, 0x00]]) with
      | .refused r => r == .imageTooLong
      | .next _ => false
      | .fault _ => false) = true := by decide

/-! ## Witnesses: concrete states and operands that meet the hypotheses of each statement -/

/-- The state an outcome gives, `d` if it gives none. -/
def stateOf (d : State) (o : Host.Outcome State Fault Refusal) : State :=
  match o with
  | .next t => t
  | .fault _ => d
  | .refused _ => d

/-- A state about to run the word `w` at `pc` with no key. -/
def ready (pc : Word) (w : Nat) : State := ((State.reset.setPc pc).withFetchWord 16 w).withEvents [.step none 0]

/-- A state whose next fetch is outside memory. -/
def pastMemory : State := (State.reset.setPc 4095).withEvents [.step none 0]

/-- A halted state with both timers running and one event to come. -/
def haltedBefore (e : Event) : State :=
  { State.reset.withEvents [e] with halted := true, faultCode := 2, faultInstr := 0x00EE, faultPc := 0x200, dt := 1, st := 1 }

/-- A machine with the last legal load address, the last legal font address and a stack of one entry. -/
def edgeConfig : Config := { defaultConfig with loadBase := 4094, fontBase := 4016, stackDepth := some 1 }

/-- Registers and I set for the memory instructions. -/
def atIndex (i : Word) : State := (withRegs [(0, 0x7B), (1, 0x22), (15, 0xFF)]).setIndex i

theorem witness_DecodeAndEncodeAreInverse :
    decodeWord 0x8AB4 = .ok (.addReg 10 11) ∧ decodeWord 0xFF65 = .ok (.ldRegs 15) := by decide
theorem witness_DecoderFollowsOpcodeMap :
    decodeWord 0x8AB4 = .ok (.addReg 10 11) ∧ (∃ r ∈ opcodeTable, r.selects 0x8AB4 = true) ∧
    (∀ r ∈ opcodeTable, r.selects 0x8018 = false) := by decide
theorem witness_FetchIsBigEndian : (State.reset.setPc 4094).pc.toNat + 2 ≤ 4096 := by decide
theorem witness_StepRunsDecodedInstruction :
    (ready 4094 0x6005).halted = false ∧ (ready 4094 0x6005).pc.toNat + 2 ≤ 4096 ∧
    decode [(ready 4094 0x6005).readByte (ready 4094 0x6005).pc.toNat,
      (ready 4094 0x6005).readByte ((ready 4094 0x6005).pc.toNat + 1)] = .ok (.ldImm 0 5, []) ∧
    (ready 4094 0x6005).env.events = [.step none 0] := by decide
theorem witness_StepRunsDecodedInstruction_free :
    (State.reset.withFetchWord 16 0x6005).halted = false ∧
    (State.reset.withFetchWord 16 0x6005).pc.toNat + 2 ≤ 4096 ∧
    decode [(State.reset.withFetchWord 16 0x6005).readByte 0x200,
      (State.reset.withFetchWord 16 0x6005).readByte 0x201] = .ok (.ldImm 0 5, []) ∧
    (State.reset.withFetchWord 16 0x6005).env.events = [] ∧
    (State.reset.withFetchWord 16 0x6005).env.stepsToTick = 0 + 1 := by decide
theorem witness_FetchOutsideMemoryHalts :
    pastMemory.halted = false ∧ pastMemory.upcoming = .step none 0 ∧ 4094 < pastMemory.pc.toNat := by decide
/-- A STEP of the free schedule. -/
theorem witness_FetchOutsideMemoryHalts_free :
    (State.reset.setPc 4095).halted = false ∧ (State.reset.setPc 4095).env.events = [] ∧
    (State.reset.setPc 4095).upcoming = .step (Config.freeKey 0) (Config.freeRnd 0) ∧
    4094 < (State.reset.setPc 4095).pc.toNat := ⟨rfl, rfl, rfl, by decide⟩
theorem witness_InvalidInstructionHalts :
    (ready 4094 0x8018).halted = false ∧ (ready 4094 0x8018).upcoming = .step none 0 ∧
    (ready 4094 0x8018).pc.toNat + 2 ≤ 4096 ∧ (ready 4094 0x8018).fetch = some 0x8018 ∧
    decodeWord 0x8018 = .error (.invalidInstruction 0x8018) := by decide
/-- A STEP of the free schedule: the word 0x0000 that empty memory holds. -/
theorem witness_InvalidInstructionHalts_free :
    State.reset.halted = false ∧ State.reset.upcoming = .step (Config.freeKey 0) (Config.freeRnd 0) ∧
    State.reset.pc.toNat + 2 ≤ 4096 ∧ State.reset.fetch = some 0x0000 ∧
    decodeWord 0x0000 = .error (.invalidInstruction 0x0000) := ⟨rfl, rfl, by decide, by decide, by decide⟩
theorem witness_FaultsArePrecise :
    pastMemory.halted = false ∧ step pastMemory = .next (stateOf pastMemory (step pastMemory)) ∧
    (stateOf pastMemory (step pastMemory)).halted = true := ⟨rfl, rfl, by decide⟩
theorem witness_HaltedBlockLeavesOnlyByReset_step :
    (haltedBefore (.step (some 3) 7)).halted = true ∧ step (haltedBefore (.step (some 3) 7)) =
      .next (stateOf State.reset (step (haltedBefore (.step (some 3) 7)))) ∧
    (haltedBefore (.step (some 3) 7)).env.events = [.step (some 3) 7] := ⟨rfl, rfl, rfl⟩
theorem witness_HaltedBlockLeavesOnlyByReset_no_tick : (haltedBefore (.step (some 3) 7)).upcoming ≠ .tick := by decide
theorem witness_HaltedBlockLeavesOnlyByReset_tick :
    (haltedBefore .tick).halted = true ∧
    step (haltedBefore .tick) = .next (stateOf State.reset (step (haltedBefore .tick))) := ⟨rfl, rfl⟩
theorem witness_HaltedBlockLeavesOnlyByReset_reset :
    (haltedBefore (.reset [0x12])).halted = true ∧
    step (haltedBefore (.reset [0x12])) = .next (stateOf State.reset (step (haltedBefore (.reset [0x12])))) :=
  ⟨rfl, rfl⟩
/-- An image one byte too long, and one that just fits, above the last legal load address. -/
theorem witness_OnlyALaunchThatDoesNotFitIsRefused :
    ({ haltedBefore (.reset [1, 2, 3]) with cfg := edgeConfig }).env.events = [.reset [1, 2, 3]] ∧
    4096 < edgeConfig.loadBase + [1, 2, 3].length ∧ edgeConfig.loadBase + [1, 2].length ≤ 4096 := by decide
theorem witness_OnlyALaunchThatDoesNotFitIsRefused_step :
    ∀ program es, (haltedBefore .tick).env.events = .reset program :: es →
      (haltedBefore .tick).cfg.loadBase + program.length ≤ 4096 := fun _ _ h => nomatch h
/-- A state at a TICK of the free schedule. -/
def atFreeTick : State := { State.reset with dt := 1, env := { State.reset.env with stepsToTick := 0 } }
theorem witness_TickCountsDownBothTimers_free :
    atFreeTick.env.events = [] ∧ atFreeTick.env.stepsToTick = 0 ∧ atFreeTick.upcoming = .tick := by decide
theorem witness_TickCountsDownBothTimers :
    (haltedBefore .tick).env.events = [.tick] ∧ (haltedBefore .tick).st = 1 ∧
    (State.reset.withEvents [.tick]).env.events = [.tick] ∧ (State.reset.withEvents [.tick]).st = 0 := by decide
theorem witness_TimersReachZeroAfterTheirCount :
    (State.reset.withEvents [.tick, .tick, .step none 0]).env.events =
      List.replicate 2 .tick ++ [.step none 0] := by decide
theorem witness_TickCommutesWithOtherInstructions :
    (∀ x, Instr.ldVxK 3 ≠ .ldVxDt x) ∧ (∀ x, Instr.ldVxK 3 ≠ .ldDtVx x) ∧ (∀ x, Instr.ldVxK 3 ≠ .ldStVx x) ∧
    exec (.ldVxK 3) (haltedBefore .tick) = .next (haltedBefore .tick) := ⟨nofun, nofun, nofun, rfl⟩

/-- The last legal load address and an image that just fits; font bytes 0 and 79 and the byte after them. -/
theorem witness_ResetEventInitialisesEverything :
    ({ haltedBefore (.reset [0x12, 0x34]) with cfg := edgeConfig }).env.events = [.reset [0x12, 0x34]] ∧
    edgeConfig.wellFormed = true ∧ edgeConfig.loadBase + [0x12, 0x34].length ≤ 4096 ∧
    (edgeConfig.fontBase + 0 < edgeConfig.loadBase) ∧ (edgeConfig.loadBase = edgeConfig.fontBase + 78) ∧
    (4015 < edgeConfig.fontBase) := by decide

/-- A state inside a subroutine, on a machine with one stack entry, all used. -/
def inSubroutine : State := { (ready 0x20A 0x00EE) with cfg := { defaultConfig with stackDepth := some 1 }, stack := [0x206] }

theorem inSubroutine_memory : Memory.wf inSubroutine.cfg inSubroutine.mem := by decide
theorem inSubroutine_returns : ∀ w ∈ inSubroutine.stack, w.toNat ≤ memSize := by
  intro w h
  rw [show inSubroutine.stack = [0x206] from rfl, List.mem_singleton] at h
  rw [h]
  decide
theorem inSubroutine_depth : ∀ d, inSubroutine.cfg.stackDepth = some d → inSubroutine.stack.length ≤ d := by
  intro d h
  rw [show inSubroutine.cfg.stackDepth = some 1 from rfl] at h
  rw [show inSubroutine.stack.length = 1 from rfl]
  injection h with h
  omega
theorem inSubroutine_record : inSubroutine.recordOk := ⟨fun _ => by decide, fun h => absurd h (by decide)⟩
theorem witness_StepKeepsInvariant : inSubroutine.Inv :=
  ⟨by decide, inSubroutine_memory, by decide, inSubroutine_returns, inSubroutine_depth, inSubroutine_record⟩
theorem witness_StepKeepsInvariant_step :
    step inSubroutine = .next (stateOf inSubroutine (step inSubroutine)) := rfl

/-- Fx33 changes memory. -/
theorem witness_OnlyTheTablesWritersWrite_memory :
    exec (.ldB 0) (atIndex 4093) = .next (stateOf (atIndex 4093) (exec (.ldB 0) (atIndex 4093))) ∧
    ¬ keepsMemory (atIndex 4093) (stateOf (atIndex 4093) (exec (.ldB 0) (atIndex 4093))) :=
  ⟨rfl, fun h => absurd (h 4095) (by decide)⟩
/-- Dxyn, with the font's glyph 0 as its sprite, changes the framebuffer. -/
theorem witness_OnlyTheTablesWritersWrite_screen :
    exec (.drw 0 0 1) State.reset = .next (stateOf State.reset (exec (.drw 0 0 1) State.reset)) ∧
    ¬ keepsScreen State.reset (stateOf State.reset (exec (.drw 0 0 1) State.reset)) :=
  ⟨rfl, fun h => absurd (h 0 0) (by decide)⟩
theorem witness_OnlyTheTablesWritersWrite_stack :
    exec (.call 0x300) State.reset = .next ((State.reset.push 0x202).setPc 0x300) ∧
    ((State.reset.push 0x202).setPc 0x300).stack ≠ State.reset.stack := ⟨rfl, by decide⟩
theorem witness_OnlyTheTablesWritersWrite_index :
    exec (.ldI 0x300) State.reset = .next (State.reset.advance.setIndex 0x300) ∧
    (State.reset.advance.setIndex 0x300).i ≠ State.reset.i := ⟨rfl, by decide⟩
theorem witness_OnlyTheTablesWritersWrite_timers :
    exec (.ldDtVx 0) (atIndex 0) = .next { (atIndex 0).advance with dt := (atIndex 0).reg 0 } ∧
    (atIndex 0).reg 0 ≠ (atIndex 0).dt ∧
    exec (.ldStVx 0) (atIndex 0) = .next { (atIndex 0).advance with st := (atIndex 0).reg 0 } ∧
    (atIndex 0).reg 0 ≠ (atIndex 0).st := ⟨rfl, by decide, rfl, by decide⟩
/-- VF as a destination, and VF as a flag. -/
theorem witness_FlagRegisterWritersAreTheListedOnes :
    exec (.ldImm VF 3) State.reset = .next (State.reset.advance.setReg VF 3) ∧
    (State.reset.advance.setReg VF 3).reg VF ≠ State.reset.reg VF ∧
    exec (.addReg 1 1) (withRegs [(1, 0x80)]) =
      .next (stateOf State.reset (exec (.addReg 1 1) (withRegs [(1, 0x80)]))) ∧
    (stateOf State.reset (exec (.addReg 1 1) (withRegs [(1, 0x80)]))).reg VF ≠ (withRegs [(1, 0x80)]).reg VF :=
  ⟨rfl, by decide, rfl, by decide⟩
theorem witness_ProgramCounterAfterEachInstruction :
    inSubroutine.halted = false ∧ exec .ret inSubroutine = .next (stateOf inSubroutine (exec .ret inSubroutine)) ∧
    (stateOf inSubroutine (exec .ret inSubroutine)).halted = false ∧
    exec .cls inSubroutine = .next (stateOf inSubroutine (exec .cls inSubroutine)) ∧
    (stateOf inSubroutine (exec .cls inSubroutine)).halted = false := ⟨rfl, rfl, by decide, rfl, by decide⟩
theorem witness_NoInstructionReadsSoundTimer :
    exec (.ldStVx 2) State.reset = .next (stateOf State.reset (exec (.ldStVx 2) State.reset)) ∧
    exec (.ldVxDt 2) State.reset = .next (stateOf State.reset (exec (.ldVxDt 2) State.reset)) ∧
    (∀ x, Instr.ldVxDt 2 ≠ .ldStVx x) := ⟨rfl, rfl, nofun⟩
theorem witness_InputsReachOnlyTheirInstructions :
    exec (.rndImm 1 2) State.reset = .next (stateOf State.reset (exec (.rndImm 1 2) State.reset)) ∧
    (∀ x, Instr.rndImm 1 2 ≠ .skp x) ∧ (∀ x, Instr.rndImm 1 2 ≠ .sknp x) ∧ (∀ x, Instr.rndImm 1 2 ≠ .ldVxK x) ∧
    exec (.skp 1) State.reset = .next (stateOf State.reset (exec (.skp 1) State.reset)) ∧
    (∀ x nn, Instr.skp 1 ≠ .rndImm x nn) := ⟨rfl, nofun, nofun, nofun, rfl, nofun⟩
theorem witness_SelfJumpChangesNothing :
    (ready 0x204 0x1204).atSelfJump = true ∧ (ready 0x204 0x1204).upcoming = .step none 0 := by decide
theorem witness_SelfJumpChangesNothing_free :
    (State.reset.withFetchWord 16 0x1200).atSelfJump = true ∧
    (State.reset.withFetchWord 16 0x1200).upcoming = .step (Config.freeKey 0) (Config.freeRnd 0) := ⟨by decide, rfl⟩
theorem witness_CanonicalMemoryIsUnique :
    Memory.wf defaultConfig [(0, 0x12), (4095, 0x34)] ∧
    Memory.wf defaultConfig (Memory.write defaultConfig [(4095, 0x34)] 0 0x12) := by decide
/-- The equality premise of the same statement: one of the two memories, built twice. -/
theorem witness_CanonicalMemoryIsUnique_reads :
    ∀ a, Memory.read defaultConfig [(0, 0x12), (4095, 0x34)] a =
      Memory.read defaultConfig (Memory.write defaultConfig [(4095, 0x34)] 0 0x12) a := fun _ => rfl
/-- V0, V1 stored at the last two addresses: the fetch at 4094 reads both, the one at 4093 the first only. -/
theorem witness_StoreIsSeenByTheNextFetch :
    Memory.wf (atIndex 4094).cfg (atIndex 4094).mem ∧ (atIndex 4094).i.toNat + (1 : Reg).val < 4096 ∧
    exec (.stRegs 1) (atIndex 4094) = .next (stateOf State.reset (exec (.stRegs 1) (atIndex 4094))) ∧
    ((stateOf State.reset (exec (.stRegs 1) (atIndex 4094))).setPc 4094).pc.toNat + 2 ≤ 4096 ∧
    ((stateOf State.reset (exec (.stRegs 1) (atIndex 4094))).setPc 4094).pc.toNat =
      (atIndex 4094).i.toNat + (0 : Reg).val ∧
    ((stateOf State.reset (exec (.stRegs 1) (atIndex 4094))).setPc 4093).pc.toNat + 1 =
      (atIndex 4094).i.toNat + (0 : Reg).val := ⟨by decide, by decide, rfl, by decide, by decide, by decide⟩
/-- Digits stored at 4092 and up: the fetch at 4094 reads the last digit only, the one at 4091 the first only. -/
theorem witness_StoreIsSeenByTheNextFetch_digits :
    Memory.wf (atIndex 4092).cfg (atIndex 4092).mem ∧ (atIndex 4093).i.toNat + 2 < 4096 ∧
    exec (.ldB 0) (atIndex 4092) = .next (stateOf State.reset (exec (.ldB 0) (atIndex 4092))) ∧
    ((State.reset.setPc 4094).pc.toNat = (atIndex 4092).i.toNat + 2 ∧
      (atIndex 4092).i.toNat + 2 < (State.reset.setPc 4094).pc.toNat + 1) ∧
    ((State.reset.setPc 4091).pc.toNat + 1 = (atIndex 4092).i.toNat + 0 ∧
      (State.reset.setPc 4091).pc.toNat < (atIndex 4092).i.toNat) :=
  ⟨by decide, by decide, rfl, by decide, by decide⟩
theorem test_store_seen_by_fetch_across_the_run :
    ((stateOf State.reset (exec (.ldB 0) (atIndex 4092))).setPc 4094).fetch = some 0x0300 := by decide
theorem witness_StoreThenLoadRestoresRegisters :
    Memory.wf (atIndex 4080).cfg (atIndex 4080).mem ∧ (atIndex 4080).i.toNat + (15 : Reg).val < 4096 ∧
    exec (.stRegs 15) (atIndex 4080) = .next (stateOf State.reset (exec (.stRegs 15) (atIndex 4080))) :=
  ⟨by decide, by decide, rfl⟩
/-- A machine with one stack entry, none used. -/
theorem witness_CallThenReturnComesBack :
    (∀ d, { State.reset with cfg := edgeConfig }.cfg.stackDepth = some d →
      { State.reset with cfg := edgeConfig }.stack.length ≠ d) ∧
    exec (.call 0x300) { State.reset with cfg := edgeConfig } =
      .next (({ State.reset with cfg := edgeConfig }.push 0x202).setPc 0x300) :=
  ⟨fun d h => by cases h; decide, rfl⟩
theorem witness_DrawingTwiceRestoresTheScreen :
    State.reset.i.toNat + (5 : Rows).val ≤ 4096 ∧
    exec (.drw 1 2 5) State.reset = .next (stateOf State.reset (exec (.drw 1 2 5) State.reset)) ∧
    (stateOf State.reset (exec (.drw 1 2 5) State.reset)).reg 1 = State.reset.reg 1 ∧
    (stateOf State.reset (exec (.drw 1 2 5) State.reset)).reg 2 = State.reset.reg 2 :=
  ⟨by decide, rfl, by decide, by decide⟩
/-- No row at all, with I outside memory. -/
theorem witness_DrawingTwiceRestoresTheScreen_empty :
    (0 : Rows).val = 0 ∧ exec (.drw 1 2 0) (atIndex 0xFFFF) =
      .next (stateOf State.reset (exec (.drw 1 2 0) (atIndex 0xFFFF))) := ⟨rfl, rfl⟩
/-- The last sprite byte at the last address. -/
theorem witness_DrawingTwiceRestoresTheScreen_edge :
    (atIndex 4081).i.toNat + (15 : Rows).val = 4096 ∧ exec (.drw 1 2 15) (atIndex 4081) =
      .next (stateOf State.reset (exec (.drw 1 2 15) (atIndex 4081))) := ⟨by decide, rfl⟩
theorem witness_CallPushesReturnAddress :
    inSubroutine.cfg.stackDepth = some inSubroutine.stack.length ∧
    State.reset.cfg.stackDepth ≠ some State.reset.stack.length ∧
    edgeConfig.stackDepth ≠ some State.reset.stack.length := by decide
theorem witness_ReturnPopsReturnAddress : State.reset.stack = [] ∧ inSubroutine.stack = 0x206 :: [] := by decide
theorem witness_AddSetsCarry : (3 : Reg) ≠ VF := by decide
theorem witness_SubtractionsSetStrictNoBorrow : (14 : Reg) ≠ VF := by decide
theorem witness_ShiftsMoveTheBitOutToFlag : (0 : Reg) ≠ VF := by decide
theorem witness_IndexLoadsSetIndex : { State.reset with cfg := edgeConfig }.cfg.wellFormed = true := by decide
theorem witness_StoreDecimalWritesThreeDigits :
    4093 < (atIndex 4094).i.toNat ∧ (atIndex 4093).i.toNat ≤ 4093 ∧ Memory.wf (atIndex 4093).cfg (atIndex 4093).mem := by
  decide
theorem witness_StoreRegistersWritesTheRun :
    4095 < (atIndex 4081).i.toNat + (15 : Reg).val ∧ (atIndex 4080).i.toNat + (15 : Reg).val ≤ 4095 ∧
    Memory.wf (atIndex 4080).cfg (atIndex 4080).mem := by decide
theorem witness_LoadRegistersReadsTheRun :
    4095 < (atIndex 4096).i.toNat + (0 : Reg).val ∧ (atIndex 4095).i.toNat + (0 : Reg).val ≤ 4095 := by decide
theorem witness_DrawTogglesExactlyTheSpritePixels :
    ((15 : Rows).val ≠ 0 ∧ 4096 < (atIndex 4082).i.toNat + (15 : Rows).val) ∧
    (atIndex 4081).i.toNat + (15 : Rows).val ≤ 4096 ∧ (0 : Rows).val = 0 ∧ State.reset.spriteBit 0 0 = true := by decide
theorem witness_KeySkipsCompareTheWholeRegister :
    State.reset.env.key = none ∧ (State.reset.sample (some 15) 0).env.key = some 15 := by decide
theorem witness_WaitForKeyRepeatsUntilAKey :
    State.reset.env.key = none ∧ (State.reset.sample (some 0) 0).env.key = some 0 := by decide

/-- An endless run: a halted block with both timers running, under the free schedule. -/
def haltedRun : Nat → State
  | 0 => { State.reset with halted := true, faultCode := 1, faultPc := 0x200, dt := 5, st := 3 }
  | n + 1 => stateOf (haltedRun n) (step (haltedRun n))

theorem haltedRun_step (n : Nat) :
    (haltedRun n).env.events = [] ∧ (haltedRun n).halted = true ∧ step (haltedRun n) = .next (haltedRun (n + 1)) ∧
    ((haltedRun n).upcoming ≠ .tick →
      (haltedRun (n + 1)).dt = (haltedRun n).dt ∧ (haltedRun (n + 1)).st = (haltedRun n).st) := by
  have go : ∀ n, (haltedRun n).env.events = [] ∧ (haltedRun n).halted = true := by
    intro n
    induction n with
    | zero => exact ⟨rfl, rfl⟩
    | succ n ih =>
      obtain ⟨t, ht, he, hh, -⟩ := step_of_halted ih.1 ih.2
      rw [haltedRun, ht]
      exact ⟨he, hh⟩
  obtain ⟨t, ht, -, -, hk⟩ := step_of_halted (go n).1 (go n).2
  rw [haltedRun, ht]
  exact ⟨(go n).1, (go n).2, rfl, hk⟩

theorem witness_EveryEndlessRunKeepsTicking : EndlessRun haltedRun := fun n => (haltedRun_step n).2.2.1
theorem witness_EveryEndlessRunKeepsTicking_start : State.reset.env.events = [] := rfl
theorem witness_TimersLeftAloneReachZero :
    EndlessRun haltedRun ∧
    (∀ m, 0 ≤ m → (haltedRun m).upcoming ≠ .tick → (haltedRun (m + 1)).dt = (haltedRun m).dt) ∧
    (∀ m, 0 ≤ m → (haltedRun m).upcoming ≠ .tick → (haltedRun (m + 1)).st = (haltedRun m).st) ∧
    (haltedRun 0).dt = 5 :=
  ⟨witness_EveryEndlessRunKeepsTicking, fun m _ h => ((haltedRun_step m).2.2.2 h).1,
    fun m _ h => ((haltedRun_step m).2.2.2 h).2, rfl⟩
/-- A free TICK is followed by a free gap, whatever it is. -/
theorem test_free_tick : after (step atFreeTick) (fun t => t.dt == 0 && t.env.ticksDrawn == 1) = true := by decide
/-- A word placed where the schedule stands at a TICK runs in the very next step. -/
theorem test_withFetchWord_at_tick : after (runWord 0x6005 atFreeTick) (fun t => t.reg 0 == 5 && t.pc == 0x202)
    = true := by decide

end Sys2Proof.Tests
end

section
/-! Control transfer (40_control_flow.md): the jump `1nnn` and the skips `3xnn`, `4xnn`, `5xy0`, `9xy0`. -/

namespace Sys2Proof

/-! ## The words of the jump and of the register skips (30_encoding.md R54) -/

theorem decodeWord_jp (nnn : Addr12) : decodeWord (ofNibbleAddr 0x1 nnn) = .ok (.jp nnn) := by
  simp [decodeWord, opField_ofNibbleAddr, nnnField_ofNibbleAddr]

theorem decodeWord_seImm (x : Reg) (nn : Byte) :
    decodeWord (ofNibblesByte 0x3 (nibble x) nn) = .ok (.seImm x nn) := by
  simp [decodeWord, opField_ofNibblesByte, xField_ofNibblesByte, nnField_ofNibblesByte, toFin_nibble]

theorem decodeWord_sneImm (x : Reg) (nn : Byte) :
    decodeWord (ofNibblesByte 0x4 (nibble x) nn) = .ok (.sneImm x nn) := by
  simp [decodeWord, opField_ofNibblesByte, xField_ofNibblesByte, nnField_ofNibblesByte, toFin_nibble]

theorem decodeWord_seReg (x y : Reg) :
    decodeWord (ofNibbles 0x5 (nibble x) (nibble y) 0x0) = .ok (.seReg x y) := by
  simp [decodeWord, opField_ofNibbles, xField_ofNibbles, yField_ofNibbles, nField_ofNibbles, toFin_nibble]

theorem decodeWord_sneReg (x y : Reg) :
    decodeWord (ofNibbles 0x9 (nibble x) (nibble y) 0x0) = .ok (.sneReg x y) := by
  simp [decodeWord, opField_ofNibbles, xField_ofNibbles, yField_ofNibbles, nField_ofNibbles, toFin_nibble]

namespace Machine

/-! ## A state whose PC alone was written -/

theorem toNat_immAddr (nnn : Addr12) : (immAddr nnn).toNat = nnn.toNat :=
  BitVec.toNat_setWidth_of_le (by decide)

theorem State.keepsRegs_setPc (s : State) (w : Word) : keepsRegs [] s (s.setPc w) :=
  fun r _ => State.reg_congr (s.setPc_v w) r

theorem State.keepsAllButRegs_setPc (s : State) (w : Word) : KeepsAllButRegs s (s.setPc w) where
  index := s.setPc_i w
  stack := s.setPc_stack w
  timers := ⟨s.setPc_dt w, s.setPc_st w⟩
  screen _ _ := by rw [State.setPc_fb]
  memory := State.keepsMemory_of_eq (s.setPc_cfg w) (s.setPc_mem w)
  record := rfl
  env := ⟨s.setPc_cfg w, s.setPc_env w⟩

/-! ## A skip, and the comparison that decides it -/

/-- The advance and a skip together: PC moves by two instructions when the condition holds, else by one
(40_control_flow.md R78). -/
theorem State.skipIf_advance (s : State) (c : Bool) :
    s.advance.skipIf c = { s with pc := if c then s.pc + 4 else s.pc + 2 } := by
  cases c with
  | false => rfl
  | true =>
    have two_twice : s.pc + 2 + 2 = s.pc + 4 := BitVec.add_assoc s.pc 2 2
    rw [if_pos rfl, ← two_twice]
    rfl

theorem State.skipIf_advance_beq (s : State) (a b : Byte) :
    s.advance.skipIf (a == b) = { s with pc := if a = b then s.pc + 4 else s.pc + 2 } := by
  simp only [State.skipIf_advance, beq_iff_eq]

theorem State.skipIf_advance_bne (s : State) (a b : Byte) :
    s.advance.skipIf (a != b) = { s with pc := if a = b then s.pc + 2 else s.pc + 4 } := by
  simp only [State.skipIf_advance, bne_iff_ne, ite_not]

/-! ## What `exec` does with each of them -/

theorem exec_jp (nnn : Addr12) (s : State) : exec (.jp nnn) s = .next (s.setPc (immAddr nnn)) := rfl

theorem exec_seImm (x : Reg) (nn : Byte) (s : State) :
    exec (.seImm x nn) s = .next (s.advance.skipIf (s.reg x == nn)) := rfl

theorem exec_sneImm (x : Reg) (nn : Byte) (s : State) :
    exec (.sneImm x nn) s = .next (s.advance.skipIf (s.reg x != nn)) := rfl

theorem exec_seReg (x y : Reg) (s : State) :
    exec (.seReg x y) s = .next (s.advance.skipIf (s.reg x == s.reg y)) := rfl

theorem exec_sneReg (x y : Reg) (s : State) :
    exec (.sneReg x y) s = .next (s.advance.skipIf (s.reg x != s.reg y)) := rfl

/-! ## The obligations -/

/-- Settles O30: the word decodes to the jump, whose one update is a write of PC (R71). -/
theorem jumpSetsProgramCounter : Obligations.JumpSetsProgramCounter :=
  fun nnn => ⟨decodeWord_jp nnn, fun s =>
    ⟨s.setPc (immAddr nnn), exec_jp nnn s, toNat_immAddr nnn, s.keepsRegs_setPc _,
      s.keepsAllButRegs_setPc _⟩⟩

/-- Settles O34: each of the four is the advance followed by a skip on one comparison of bytes (R73 to R76). -/
theorem skipsCompareRegisters : Obligations.SkipsCompareRegisters := by
  intro x y nn
  refine ⟨decodeWord_seImm x nn, decodeWord_sneImm x nn, decodeWord_seReg x y, decodeWord_sneReg x y,
    fun s => ⟨?_, ?_, ?_, ?_⟩⟩
  · rw [exec_seImm, State.skipIf_advance_beq]
  · rw [exec_sneImm, State.skipIf_advance_bne]
  · rw [exec_seReg, State.skipIf_advance_beq]
  · rw [exec_sneReg, State.skipIf_advance_bne]

end Machine
end Sys2Proof
end

section
/-! Register load and ALU (41_alu.md): `6xnn`, `7xnn` and family 8 but for the subtractions. -/

namespace Sys2Proof

/-! ## The words of the loads and of family 8 (30_encoding.md R54) -/

theorem decodeWord_ldImm (x : Reg) (nn : Byte) :
    decodeWord (ofNibblesByte 0x6 (nibble x) nn) = .ok (.ldImm x nn) := by
  simp [decodeWord, opField_ofNibblesByte, xField_ofNibblesByte, nnField_ofNibblesByte, toFin_nibble]

theorem decodeWord_addImm (x : Reg) (nn : Byte) :
    decodeWord (ofNibblesByte 0x7 (nibble x) nn) = .ok (.addImm x nn) := by
  simp [decodeWord, opField_ofNibblesByte, xField_ofNibblesByte, nnField_ofNibblesByte, toFin_nibble]

theorem decodeWord_ofNibbles_8 (x y n : Nibble) :
    decodeWord (ofNibbles 0x8 x y n) = decode8 (ofNibbles 0x8 x y n) := by
  simp [decodeWord, opField_ofNibbles]

theorem decodeWord_ldReg (x y : Reg) :
    decodeWord (ofNibbles 0x8 (nibble x) (nibble y) 0x0) = .ok (.ldReg x y) := by
  rw [decodeWord_ofNibbles_8]
  simp [decode8, xField_ofNibbles, yField_ofNibbles, nField_ofNibbles, toFin_nibble]

theorem decodeWord_orReg (x y : Reg) :
    decodeWord (ofNibbles 0x8 (nibble x) (nibble y) 0x1) = .ok (.orReg x y) := by
  rw [decodeWord_ofNibbles_8]
  simp [decode8, xField_ofNibbles, yField_ofNibbles, nField_ofNibbles, toFin_nibble]

theorem decodeWord_andReg (x y : Reg) :
    decodeWord (ofNibbles 0x8 (nibble x) (nibble y) 0x2) = .ok (.andReg x y) := by
  rw [decodeWord_ofNibbles_8]
  simp [decode8, xField_ofNibbles, yField_ofNibbles, nField_ofNibbles, toFin_nibble]

theorem decodeWord_xorReg (x y : Reg) :
    decodeWord (ofNibbles 0x8 (nibble x) (nibble y) 0x3) = .ok (.xorReg x y) := by
  rw [decodeWord_ofNibbles_8]
  simp [decode8, xField_ofNibbles, yField_ofNibbles, nField_ofNibbles, toFin_nibble]

theorem decodeWord_addReg (x y : Reg) :
    decodeWord (ofNibbles 0x8 (nibble x) (nibble y) 0x4) = .ok (.addReg x y) := by
  rw [decodeWord_ofNibbles_8]
  simp [decode8, xField_ofNibbles, yField_ofNibbles, nField_ofNibbles, toFin_nibble]

theorem decodeWord_shr (x y : Reg) :
    decodeWord (ofNibbles 0x8 (nibble x) (nibble y) 0x6) = .ok (.shr x y) := by
  rw [decodeWord_ofNibbles_8]
  simp [decode8, xField_ofNibbles, yField_ofNibbles, nField_ofNibbles, toFin_nibble]

theorem decodeWord_shl (x y : Reg) :
    decodeWord (ofNibbles 0x8 (nibble x) (nibble y) 0xE) = .ok (.shl x y) := by
  rw [decodeWord_ofNibbles_8]
  simp [decode8, xField_ofNibbles, yField_ofNibbles, nField_ofNibbles, toFin_nibble]

namespace Machine

/-! ## What the ALU gives, as numbers (41_alu.md R103) -/

theorem toNat_aluAdd_r (a b : Byte) : (aluAdd a b).r.toNat = (a.toNat + b.toNat) % 256 :=
  BitVec.toNat_ofNat (a.toNat + b.toNat) 8

theorem flagByte_aluAdd_f (a b : Byte) :
    flagByte (aluAdd a b).f = if 255 < a.toNat + b.toNat then 1 else 0 := by
  simp only [flagByte, aluAdd, decide_eq_true_eq, gt_iff_lt]

theorem toNat_flagByte (f : Bool) : (flagByte f).toNat = f.toNat := by cases f <;> rfl

theorem toNat_flagByte_getLsbD (a : Byte) (k : Nat) :
    (flagByte (a.getLsbD k)).toNat = a.toNat / 2 ^ k % 2 := by
  rw [toNat_flagByte, BitVec.getLsbD, Nat.toNat_testBit]

theorem toNat_aluShr_r (a : Byte) : (aluShr a).r.toNat = a.toNat / 2 :=
  BitVec.toNat_ushiftRight a 1 |>.trans (Nat.shiftRight_eq_div_pow _ 1)

theorem toNat_flagByte_aluShr_f (a : Byte) : (flagByte (aluShr a).f).toNat = a.toNat % 2 := by
  rw [aluShr, toNat_flagByte_getLsbD, Nat.pow_zero, Nat.div_one]

theorem toNat_aluShl_r (a : Byte) : (aluShl a).r.toNat = 2 * a.toNat % 256 := by
  rw [aluShl, BitVec.toNat_shiftLeft, Nat.shiftLeft_eq, Nat.mul_comm]

theorem toNat_flagByte_aluShl_f (a : Byte) : (flagByte (aluShl a).f).toNat = a.toNat / 128 := by
  have bit7 : (flagByte (aluShl a).f).toNat = a.toNat / 2 ^ 7 % 2 := toNat_flagByte_getLsbD a 7
  have := a.isLt
  omega

/-! ## Frames: a state whose registers and PC alone were written -/

/-- Writes of registers and PC, however many, are one update of those two fields; every other field is the
old one. -/
theorem State.keepsAllButRegs_of_regs_pc (s : State) (v : Vector Byte 16) (w : Word) :
    KeepsAllButRegs s { s with v := v, pc := w } where
  index := rfl
  stack := rfl
  timers := ⟨rfl, rfl⟩
  screen _ _ := rfl
  memory _ := rfl
  record := rfl
  env := ⟨rfl, rfl⟩

/-- The frame of an instruction that writes Vx and no flag. -/
theorem State.frame_setReg_advance (s : State) (x : Reg) (b : Byte) :
    keepsRegs [x] s (s.advance.setReg x b) ∧ (s.advance.setReg x b).pc = s.pc + 2 ∧
      KeepsAllButRegs s (s.advance.setReg x b) :=
  ⟨fun _ hr => s.advance.reg_setReg_of_ne b (List.ne_of_not_mem_cons hr), rfl,
    s.keepsAllButRegs_of_regs_pc _ _⟩

/-- The frame of an instruction that writes VF and then Vx. -/
theorem State.frame_writeFlagThenReg_advance (s : State) (x : Reg) (o : AluOut) :
    keepsRegs [x, VF] s (s.advance.writeFlagThenReg x o) ∧
      (s.advance.writeFlagThenReg x o).pc = s.pc + 2 ∧
      KeepsAllButRegs s (s.advance.writeFlagThenReg x o) := by
  refine ⟨fun r hr => ?_, rfl, s.keepsAllButRegs_of_regs_pc _ _⟩
  obtain ⟨hx, hf⟩ : r ≠ x ∧ r ≠ VF := by simpa using hr
  rw [State.reg_writeFlagThenReg, if_neg hx, if_neg hf]
  rfl

/-- The frame of an instruction that writes Vx and then VF. -/
theorem State.frame_writeRegThenFlag_advance (s : State) (x : Reg) (o : AluOut) :
    keepsRegs [x, VF] s (s.advance.writeRegThenFlag x o) ∧
      (s.advance.writeRegThenFlag x o).pc = s.pc + 2 ∧
      KeepsAllButRegs s (s.advance.writeRegThenFlag x o) := by
  refine ⟨fun r hr => ?_, rfl, s.keepsAllButRegs_of_regs_pc _ _⟩
  obtain ⟨hx, hf⟩ : r ≠ x ∧ r ≠ VF := by simpa using hr
  rw [State.reg_writeRegThenFlag, if_neg hf, if_neg hx]
  rfl

/-! ## Vx and VF after both are written: the later write wins (41_alu.md R104) -/

theorem State.reg_writeFlagThenReg_self (s : State) (x : Reg) (o : AluOut) :
    (s.writeFlagThenReg x o).reg x = o.r := by
  rw [State.reg_writeFlagThenReg, if_pos rfl]

theorem State.reg_writeFlagThenReg_VF (s : State) {x : Reg} (o : AluOut) (hx : x ≠ VF) :
    (s.writeFlagThenReg x o).reg VF = flagByte o.f := by
  rw [State.reg_writeFlagThenReg, if_neg hx.symm, if_pos rfl]

theorem State.reg_writeRegThenFlag_self (s : State) {x : Reg} (o : AluOut) (hx : x ≠ VF) :
    (s.writeRegThenFlag x o).reg x = o.r := by
  rw [State.reg_writeRegThenFlag, if_neg hx, if_pos rfl]

theorem State.reg_writeRegThenFlag_VF (s : State) (x : Reg) (o : AluOut) :
    (s.writeRegThenFlag x o).reg VF = flagByte o.f := by
  rw [State.reg_writeRegThenFlag, if_pos rfl]

/-! ## What `exec` does with each of them -/

theorem exec_ldImm (x : Reg) (nn : Byte) (s : State) :
    exec (.ldImm x nn) s = .next (s.advance.setReg x nn) := rfl

theorem exec_addImm (x : Reg) (nn : Byte) (s : State) :
    exec (.addImm x nn) s = .next (s.advance.setReg x (aluAdd (s.reg x) nn).r) := rfl

theorem exec_ldReg (x y : Reg) (s : State) :
    exec (.ldReg x y) s = .next (s.advance.setReg x (s.reg y)) := rfl

theorem exec_orReg (x y : Reg) (s : State) :
    exec (.orReg x y) s = .next (s.advance.setReg x (s.reg x ||| s.reg y)) := rfl

theorem exec_andReg (x y : Reg) (s : State) :
    exec (.andReg x y) s = .next (s.advance.setReg x (s.reg x &&& s.reg y)) := rfl

theorem exec_xorReg (x y : Reg) (s : State) :
    exec (.xorReg x y) s = .next (s.advance.setReg x (s.reg x ^^^ s.reg y)) := rfl

theorem exec_addReg (x y : Reg) (s : State) :
    exec (.addReg x y) s = .next (s.advance.writeFlagThenReg x (aluAdd (s.reg x) (s.reg y))) := rfl

theorem exec_shr (x y : Reg) (s : State) :
    exec (.shr x y) s = .next (s.advance.writeRegThenFlag x (aluShr (s.reg x))) := rfl

theorem exec_shl (x y : Reg) (s : State) :
    exec (.shl x y) s = .next (s.advance.writeRegThenFlag x (aluShl (s.reg x))) := rfl

/-! ## The obligations -/

/-- Settles O35: each of the three is one register write after the advance (R90 to R92). -/
theorem loadsAndAddImmediateWriteVx : Obligations.LoadsAndAddImmediateWriteVx := by
  intro x y nn
  refine ⟨decodeWord_ldImm x nn, decodeWord_addImm x nn, decodeWord_ldReg x y, fun s => ⟨?_, ?_, ?_⟩⟩
  · exact ⟨_, exec_ldImm x nn s, State.reg_setReg_self _ x nn, s.frame_setReg_advance x nn⟩
  · refine ⟨_, exec_addImm x nn s, ?_, s.frame_setReg_advance x _⟩
    rw [State.reg_setReg_self, toNat_aluAdd_r]
  · exact ⟨_, exec_ldReg x y s, State.reg_setReg_self _ x _, s.frame_setReg_advance x _⟩

/-- Settles O36: the byte written is the bitwise operation of the two old registers (R93 to R95). -/
theorem logicInstructionsWorkBitByBit : Obligations.LogicInstructionsWorkBitByBit := by
  intro x y
  refine ⟨decodeWord_orReg x y, decodeWord_andReg x y, decodeWord_xorReg x y, fun s => ⟨?_, ?_, ?_⟩⟩
  · refine ⟨_, exec_orReg x y s, fun k => ?_, s.frame_setReg_advance x _⟩
    rw [State.reg_setReg_self, BitVec.getLsbD_or]
  · refine ⟨_, exec_andReg x y s, fun k => ?_, s.frame_setReg_advance x _⟩
    rw [State.reg_setReg_self, BitVec.getLsbD_and]
  · refine ⟨_, exec_xorReg x y s, fun k => ?_, s.frame_setReg_advance x _⟩
    rw [State.reg_setReg_self, BitVec.getLsbD_xor]

/-- Settles O37: Vx is written last, so it holds the sum for every `x`, and VF the carry when it is not Vx
(R96, R104). -/
theorem addSetsCarry : Obligations.AddSetsCarry := by
  refine fun x y => ⟨decodeWord_addReg x y, fun s =>
    ⟨_, exec_addReg x y s, ?sum, fun hx => ?carry, s.frame_writeFlagThenReg_advance x _⟩⟩
  case sum => rw [State.reg_writeFlagThenReg_self, toNat_aluAdd_r]
  case carry => rw [State.reg_writeFlagThenReg_VF _ _ hx, flagByte_aluAdd_f]

/-- Settles O39: VF is written last, so it holds the bit shifted out for every `x`, and Vx the shifted byte
when it is not VF; `y` has no part in the state that `exec` answers (R98, R100, R104). -/
theorem shiftsMoveTheBitOutToFlag : Obligations.ShiftsMoveTheBitOutToFlag := by
  refine fun x y => ⟨decodeWord_shr x y, decodeWord_shl x y, fun s => ⟨?right, ?left⟩⟩
  case right =>
    refine ⟨_, exec_shr x y s, fun hx => ?_, ?_, s.frame_writeRegThenFlag_advance x _⟩
    · rw [State.reg_writeRegThenFlag_self _ _ hx, toNat_aluShr_r]
    · rw [State.reg_writeRegThenFlag_VF, toNat_flagByte_aluShr_f]
  case left =>
    refine ⟨_, exec_shl x y s, fun hx => ?_, ?_, s.frame_writeRegThenFlag_advance x _⟩
    · rw [State.reg_writeRegThenFlag_self _ _ hx, toNat_aluShl_r]
    · rw [State.reg_writeRegThenFlag_VF, toNat_flagByte_aluShl_f]

end Machine
end Sys2Proof
end

section
/-! Index register (42_index_memory.md): `Annn` and `Fx29`, whose one update besides PC is I. -/

namespace Sys2Proof

/-! ## The words of the two index loads (30_encoding.md R54) -/

theorem decodeWord_ldI (nnn : Addr12) : decodeWord (ofNibbleAddr 0xA nnn) = .ok (.ldI nnn) := by
  simp [decodeWord, opField_ofNibbleAddr, nnnField_ofNibbleAddr]

theorem decodeWord_ofNibblesByte_F (x : Nibble) (nn : Byte) :
    decodeWord (ofNibblesByte 0xF x nn) = decodeF (ofNibblesByte 0xF x nn) := by
  simp [decodeWord, opField_ofNibblesByte]

theorem decodeWord_ldF (x : Reg) : decodeWord (ofNibblesByte 0xF (nibble x) 0x29) = .ok (.ldF x) := by
  rw [decodeWord_ofNibblesByte_F]
  simp [decodeF, xField_ofNibblesByte, nnField_ofNibblesByte, toFin_nibble]

/-- The font of legal parameters ends inside memory (00_scope.md R4). -/
theorem Config.fontBase_add_80_le {c : Config} (h : c.wellFormed = true) : c.fontBase + 80 ≤ 4096 := by
  obtain ⟨hfont, -⟩ : c.fontFits = true ∧ c.loadFits = true := Bool.and_eq_true_iff.mp h
  exact of_decide_eq_true hfont

namespace Machine

/-! ## The address of a glyph -/

theorem toNat_and_low_nibble (b : Byte) : (b &&& 0x0F).toNat = b.toNat % 16 := by
  rw [BitVec.toNat_and]
  exact Nat.and_two_pow_sub_one_eq_mod b.toNat 4

/-- The sixteen glyphs lie in the font's 80 bytes, so the address of one is not reduced to 16 bits. -/
theorem State.toNat_glyphAddress {s : State} (h : s.cfg.wellFormed = true) (x : Reg) :
    (s.glyphAddress x).toNat = s.cfg.fontBase + 5 * ((s.reg x).toNat % 16) := by
  have hfont := Config.fontBase_add_80_le h
  rw [State.glyphAddress, toNat_and_low_nibble, BitVec.toNat_ofNat]
  exact Nat.mod_eq_of_lt (by omega)

/-! ## Frame: a state whose I and PC alone were written -/

theorem State.frame_setIndex_advance (s : State) (w : Word) :
    (s.advance.setIndex w).pc = s.pc + 2 ∧ keepsRegs [] s (s.advance.setIndex w) ∧
      keepsStack s (s.advance.setIndex w) ∧ keepsTimers s (s.advance.setIndex w) ∧
      keepsScreen s (s.advance.setIndex w) ∧ keepsMemory s (s.advance.setIndex w) ∧
      keepsRecord s (s.advance.setIndex w) ∧ keepsEnv s (s.advance.setIndex w) :=
  have sameMemory : keepsMemory s (s.advance.setIndex w) := State.keepsMemory_of_eq rfl rfl
  ⟨rfl, fun r _ => State.reg_congr rfl r, rfl, ⟨rfl, rfl⟩, fun _ _ => rfl, sameMemory, rfl, ⟨rfl, rfl⟩⟩

/-! ## What `exec` does with each of them -/

theorem exec_ldI (nnn : Addr12) (s : State) :
    exec (.ldI nnn) s = .next (s.advance.setIndex (immAddr nnn)) := rfl

theorem exec_ldF (x : Reg) (s : State) :
    exec (.ldF x) s = .next (s.advance.setIndex (s.glyphAddress x)) := rfl

/-! ## The obligation -/

/-- Settles O40: each of the two is one write of I after the advance, and under legal parameters the address
of a glyph is the unreduced sum (R110, R112). -/
theorem indexLoadsSetIndex : Obligations.IndexLoadsSetIndex := by
  refine fun nnn x => ⟨decodeWord_ldI nnn, decodeWord_ldF x, fun s => ⟨?immediate, fun hcfg => ?glyph⟩⟩
  case immediate => exact ⟨_, exec_ldI nnn s, toNat_immAddr nnn, s.frame_setIndex_advance _⟩
  case glyph => exact ⟨_, exec_ldF x s, State.toNat_glyphAddress hcfg x, s.frame_setIndex_advance _⟩

end Machine
end Sys2Proof
end

section
/-! Display (43_display.md): the clear `00E0`, whose one update besides PC is the framebuffer. -/

namespace Sys2Proof

/-- `00E0` is one of the two words of family 0 (30_encoding.md R54). -/
theorem decodeWord_cls : decodeWord 0x00E0 = .ok .cls := by decide

namespace Machine

/-! ## Frame: a state whose framebuffer and PC alone were written -/

theorem State.frame_setScreen_advance {s t : State} {fb : Screen} (ht : t = { s.advance with fb := fb }) :
    keepsRegs [] s t ∧ t.pc = s.pc + 2 ∧ keepsIndex s t ∧ keepsStack s t ∧ keepsTimers s t ∧
      keepsMemory s t ∧ keepsRecord s t ∧ keepsEnv s t := by
  subst ht
  have sameMemory : keepsMemory s { s.advance with fb := fb } := State.keepsMemory_of_eq rfl rfl
  exact ⟨fun r _ => State.reg_congr rfl r, rfl, rfl, rfl, ⟨rfl, rfl⟩, sameMemory, rfl, ⟨rfl, rfl⟩⟩

/-! ## What `exec` does with it -/

theorem exec_cls (s : State) : exec .cls s = .next { s.advance with fb := Screen.clear } := rfl

/-! ## The obligation -/

/-- Settles O45: the clear is the advance and one write of the framebuffer, whose new content is dark at
every pixel (R130). -/
theorem clearScreenClearsEveryPixel : Obligations.ClearScreenClearsEveryPixel :=
  ⟨decodeWord_cls, fun s => ⟨_, exec_cls s, Screen.pixel_clear, State.frame_setScreen_advance rfl⟩⟩

end Machine
end Sys2Proof
end

section
/-! Random, keypad and timers (44_key_timer_random.md): `Cxnn`, `Fx07`, `Fx0A`, `Fx15` and `Fx18`. -/

namespace Sys2Proof

/-! ## The words of the five (30_encoding.md R54) -/

theorem decodeWord_rndImm (x : Reg) (nn : Byte) :
    decodeWord (ofNibblesByte 0xC (nibble x) nn) = .ok (.rndImm x nn) := by
  simp [decodeWord, opField_ofNibblesByte, xField_ofNibblesByte, nnField_ofNibblesByte, toFin_nibble]

theorem decodeWord_ldVxDt (x : Reg) : decodeWord (ofNibblesByte 0xF (nibble x) 0x07) = .ok (.ldVxDt x) := by
  rw [decodeWord_ofNibblesByte_F]
  simp [decodeF, xField_ofNibblesByte, nnField_ofNibblesByte, toFin_nibble]

theorem decodeWord_ldVxK (x : Reg) : decodeWord (ofNibblesByte 0xF (nibble x) 0x0A) = .ok (.ldVxK x) := by
  rw [decodeWord_ofNibblesByte_F]
  simp [decodeF, xField_ofNibblesByte, nnField_ofNibblesByte, toFin_nibble]

theorem decodeWord_ldDtVx (x : Reg) : decodeWord (ofNibblesByte 0xF (nibble x) 0x15) = .ok (.ldDtVx x) := by
  rw [decodeWord_ofNibblesByte_F]
  simp [decodeF, xField_ofNibblesByte, nnField_ofNibblesByte, toFin_nibble]

theorem decodeWord_ldStVx (x : Reg) : decodeWord (ofNibblesByte 0xF (nibble x) 0x18) = .ok (.ldStVx x) := by
  rw [decodeWord_ofNibblesByte_F]
  simp [decodeF, xField_ofNibblesByte, nnField_ofNibblesByte, toFin_nibble]

namespace Machine

/-! ## Ticks in a row (60_exceptions.md R172, R175) -/

theorem toNat_iterate_countDown (k : Nat) (b : Byte) : (countDown^[k] b).toNat = b.toNat - k := by
  induction k with
  | zero => rfl
  | succ k ih => rw [Function.iterate_succ_apply', toNat_countDown, ih, Nat.sub_sub]

/-- A tick acts on each timer as `countDown`, whatever the rest of the state is. -/
theorem State.dt_iterate_tick (k : Nat) (s : State) : (State.tick^[k] s).dt = countDown^[k] s.dt :=
  (show Function.Semiconj State.dt State.tick countDown from State.tick_dt).iterate_right k s

theorem State.st_iterate_tick (k : Nat) (s : State) : (State.tick^[k] s).st = countDown^[k] s.st :=
  (show Function.Semiconj State.st State.tick countDown from State.tick_st).iterate_right k s

theorem State.toNat_dt_iterate_tick (k : Nat) (s : State) :
    (State.tick^[k] s).dt.toNat = s.dt.toNat - k := by
  rw [State.dt_iterate_tick, toNat_iterate_countDown]

theorem State.toNat_st_iterate_tick (k : Nat) (s : State) :
    (State.tick^[k] s).st.toNat = s.st.toNat - k := by
  rw [State.st_iterate_tick, toNat_iterate_countDown]

theorem State.tones_tick (s : State) : s.tick.env.tones = s.env.tones + toneCount s.st := rfl

/-- The tick after `k` others emits a tone exactly when ST, by then `k` lower, is above zero. -/
theorem State.tones_iterate_tick (k : Nat) (s : State) :
    (State.tick^[k] s).env.tones = s.env.tones + min k s.st.toNat := by
  induction k with
  | zero => rw [Nat.zero_min]; rfl
  | succ k ih =>
    have tone_of_last_tick : toneCount (State.tick^[k] s).st = min 1 (s.st.toNat - k) := by
      rw [toneCount_eq, State.toNat_st_iterate_tick]
    rw [Function.iterate_succ_apply', State.tones_tick, ih, tone_of_last_tick]
    omega

/-! ## Frame: a state whose timers and PC alone were written -/

theorem State.frame_setTimers_advance {s t : State} {d e : Byte} (ht : t = { s.advance with dt := d, st := e }) :
    keepsRegs [] s t ∧ t.pc = s.pc + 2 ∧ keepsIndex s t ∧ keepsStack s t ∧ keepsScreen s t ∧
      keepsMemory s t ∧ keepsRecord s t ∧ keepsEnv s t := by
  subst ht
  have sameMemory : keepsMemory s { s.advance with dt := d, st := e } := State.keepsMemory_of_eq rfl rfl
  exact ⟨fun r _ => State.reg_congr rfl r, rfl, rfl, rfl, fun _ _ => rfl, sameMemory, rfl, ⟨rfl, rfl⟩⟩

/-! ## What `exec` does with each of them -/

theorem exec_rndImm (x : Reg) (nn : Byte) (s : State) :
    exec (.rndImm x nn) s = .next (s.advance.setReg x (s.env.rnd &&& nn)) := rfl

theorem exec_ldVxDt (x : Reg) (s : State) : exec (.ldVxDt x) s = .next (s.advance.setReg x s.dt) := rfl

/-- With no key the two writes of PC cancel (R144). -/
theorem exec_ldVxK_of_no_key (x : Reg) {s : State} (h : s.env.key = none) : exec (.ldVxK x) s = .next s := by
  obtain ⟨-, unchanged⟩ | ⟨key, some_key, -⟩ := execLdVxK_cases (x := x) (s := s) rfl
  · exact congrArg Host.Outcome.next unchanged
  · exact absurd (h.symm.trans some_key) nofun

theorem exec_ldVxK_of_key (x : Reg) {s : State} {key : Key} (h : s.env.key = some key) :
    exec (.ldVxK x) s = .next (s.advance.setReg x (BitVec.ofNat 8 key.val)) := by
  simp only [exec, execLdVxK, h]

theorem exec_ldDtVx (x : Reg) (s : State) : exec (.ldDtVx x) s = .next { s.advance with dt := s.reg x } := rfl

theorem exec_ldStVx (x : Reg) (s : State) : exec (.ldStVx x) s = .next { s.advance with st := s.reg x } := rfl

/-- Every key number fits a register: `zext_8(key)` loses nothing (R147). -/
theorem toNat_ofNat_key (key : Key) : (BitVec.ofNat 8 key.val).toNat = key.val :=
  Nat.mod_eq_of_lt (Nat.lt_trans key.isLt (by decide))

/-! ## The obligations -/

/-- Settles O52: each write is the advance and one new timer value, with the tone counter kept; a run of ticks
then acts on that timer alone, and the tones of the run follow by induction from ST at each tick (R145, R146). -/
theorem setTimersThenCountDown : Obligations.SetTimersThenCountDown := by
  refine fun x => ⟨decodeWord_ldDtVx x, decodeWord_ldStVx x, fun s => ⟨?delay, ?sound⟩⟩
  case delay =>
    exact ⟨_, exec_ldDtVx x s, rfl, rfl, fun k => State.toNat_dt_iterate_tick k _,
      State.frame_setTimers_advance rfl⟩
  case sound =>
    exact ⟨_, exec_ldStVx x s, rfl, rfl,
      fun k => ⟨State.toNat_st_iterate_tick k _, State.tones_iterate_tick k _⟩,
      State.frame_setTimers_advance rfl⟩

/-- Settles O48: Vx is written once, with the conjunction of the sampled byte and the mask (R140). -/
theorem randomIsMasked : Obligations.RandomIsMasked := by
  refine fun x nn => ⟨decodeWord_rndImm x nn, fun s =>
    ⟨_, exec_rndImm x nn s, fun k => ?_, s.frame_setReg_advance x _⟩⟩
  rw [State.reg_setReg_self, BitVec.getLsbD_and]

/-- Settles O50: Vx is written once, with the value of DT (R143). -/
theorem readDelayTimerCopiesIt : Obligations.ReadDelayTimerCopiesIt :=
  fun x => ⟨decodeWord_ldVxDt x, fun s =>
    ⟨_, exec_ldVxDt x s, State.reg_setReg_self _ x _, s.frame_setReg_advance x _⟩⟩

/-- Settles O51: without a key the whole state is the old one; with a key Vx is written once (R144). -/
theorem waitForKeyRepeatsUntilAKey : Obligations.WaitForKeyRepeatsUntilAKey := by
  refine fun x => ⟨decodeWord_ldVxK x, fun s => ⟨fun h => exec_ldVxK_of_no_key x h, fun key h => ?_⟩⟩
  refine ⟨_, exec_ldVxK_of_key x h, ?_, s.frame_setReg_advance x _⟩
  rw [State.reg_setReg_self, toNat_ofNat_key]

end Machine
end Sys2Proof
end

section
/-! Encoding (30_encoding.md): decoding and encoding are inverse, the decoder follows the opcode map, and the
invalid encodings are the listed ones. -/

namespace Sys2Proof

/-! ## The words of the other instructions (30_encoding.md R54) -/

theorem decodeWord_ret : decodeWord 0x00EE = .ok .ret := by decide

theorem decodeWord_call (nnn : Addr12) : decodeWord (ofNibbleAddr 0x2 nnn) = .ok (.call nnn) := by
  simp [decodeWord, opField_ofNibbleAddr, nnnField_ofNibbleAddr]

theorem decodeWord_jpV0 (nnn : Addr12) : decodeWord (ofNibbleAddr 0xB nnn) = .ok (.jpV0 nnn) := by
  simp [decodeWord, opField_ofNibbleAddr, nnnField_ofNibbleAddr]

theorem decodeWord_subReg (x y : Reg) :
    decodeWord (ofNibbles 0x8 (nibble x) (nibble y) 0x5) = .ok (.subReg x y) := by
  rw [decodeWord_ofNibbles_8]
  simp [decode8, xField_ofNibbles, yField_ofNibbles, nField_ofNibbles, toFin_nibble]

theorem decodeWord_subnReg (x y : Reg) :
    decodeWord (ofNibbles 0x8 (nibble x) (nibble y) 0x7) = .ok (.subnReg x y) := by
  rw [decodeWord_ofNibbles_8]
  simp [decode8, xField_ofNibbles, yField_ofNibbles, nField_ofNibbles, toFin_nibble]

theorem decodeWord_drw (x y : Reg) (n : Rows) :
    decodeWord (ofNibbles 0xD (nibble x) (nibble y) (nibble n)) = .ok (.drw x y n) := by
  simp [decodeWord, opField_ofNibbles, xField_ofNibbles, yField_ofNibbles, nField_ofNibbles, toFin_nibble]

theorem decodeWord_ofNibblesByte_E (x : Nibble) (nn : Byte) :
    decodeWord (ofNibblesByte 0xE x nn) = decodeE (ofNibblesByte 0xE x nn) := by
  simp [decodeWord, opField_ofNibblesByte]

theorem decodeWord_skp (x : Reg) : decodeWord (ofNibblesByte 0xE (nibble x) 0x9E) = .ok (.skp x) := by
  rw [decodeWord_ofNibblesByte_E]
  simp [decodeE, xField_ofNibblesByte, nnField_ofNibblesByte, toFin_nibble]

theorem decodeWord_sknp (x : Reg) : decodeWord (ofNibblesByte 0xE (nibble x) 0xA1) = .ok (.sknp x) := by
  rw [decodeWord_ofNibblesByte_E]
  simp [decodeE, xField_ofNibblesByte, nnField_ofNibblesByte, toFin_nibble]

theorem decodeWord_addI (x : Reg) : decodeWord (ofNibblesByte 0xF (nibble x) 0x1E) = .ok (.addI x) := by
  rw [decodeWord_ofNibblesByte_F]
  simp [decodeF, xField_ofNibblesByte, nnField_ofNibblesByte, toFin_nibble]

theorem decodeWord_ldB (x : Reg) : decodeWord (ofNibblesByte 0xF (nibble x) 0x33) = .ok (.ldB x) := by
  rw [decodeWord_ofNibblesByte_F]
  simp [decodeF, xField_ofNibblesByte, nnField_ofNibblesByte, toFin_nibble]

theorem decodeWord_stRegs (x : Reg) : decodeWord (ofNibblesByte 0xF (nibble x) 0x55) = .ok (.stRegs x) := by
  rw [decodeWord_ofNibblesByte_F]
  simp [decodeF, xField_ofNibblesByte, nnField_ofNibblesByte, toFin_nibble]

theorem decodeWord_ldRegs (x : Reg) : decodeWord (ofNibblesByte 0xF (nibble x) 0x65) = .ok (.ldRegs x) := by
  rw [decodeWord_ofNibblesByte_F]
  simp [decodeF, xField_ofNibblesByte, nnField_ofNibblesByte, toFin_nibble]

/-! ## From an instruction to its word and back -/

theorem Instr.wellFormed_eq_true (i : Instr) : i.wellFormed = true := by cases i <;> rfl

theorem decodeWord_encode (i : Instr) : decodeWord (encode i) = .ok i := by
  cases i with
  | cls => exact decodeWord_cls
  | ret => exact decodeWord_ret
  | jp nnn => exact decodeWord_jp nnn
  | call nnn => exact decodeWord_call nnn
  | seImm x nn => exact decodeWord_seImm x nn
  | sneImm x nn => exact decodeWord_sneImm x nn
  | seReg x y => exact decodeWord_seReg x y
  | ldImm x nn => exact decodeWord_ldImm x nn
  | addImm x nn => exact decodeWord_addImm x nn
  | ldReg x y => exact decodeWord_ldReg x y
  | orReg x y => exact decodeWord_orReg x y
  | andReg x y => exact decodeWord_andReg x y
  | xorReg x y => exact decodeWord_xorReg x y
  | addReg x y => exact decodeWord_addReg x y
  | subReg x y => exact decodeWord_subReg x y
  | shr x y => exact decodeWord_shr x y
  | subnReg x y => exact decodeWord_subnReg x y
  | shl x y => exact decodeWord_shl x y
  | sneReg x y => exact decodeWord_sneReg x y
  | ldI nnn => exact decodeWord_ldI nnn
  | jpV0 nnn => exact decodeWord_jpV0 nnn
  | rndImm x nn => exact decodeWord_rndImm x nn
  | drw x y n => exact decodeWord_drw x y n
  | skp x => exact decodeWord_skp x
  | sknp x => exact decodeWord_sknp x
  | ldVxDt x => exact decodeWord_ldVxDt x
  | ldVxK x => exact decodeWord_ldVxK x
  | ldDtVx x => exact decodeWord_ldDtVx x
  | ldStVx x => exact decodeWord_ldStVx x
  | addI x => exact decodeWord_addI x
  | ldF x => exact decodeWord_ldF x
  | ldB x => exact decodeWord_ldB x
  | stRegs x => exact decodeWord_stRegs x
  | ldRegs x => exact decodeWord_ldRegs x

/-! ## From a word to its instruction and back: a word with the fixed digits of a format is the word of its
other fields -/

theorem ofNibbleAddr_eq {w : Word} {a : Nibble} (hop : (opField w).toNat = a.toNat) :
    ofNibbleAddr a (nnnField w) = w := by
  rw [← BitVec.eq_of_toNat_eq hop, ofNibbleAddr_fields]

theorem ofNibblesByte_op_eq {w : Word} {a : Nibble} (hop : (opField w).toNat = a.toNat) :
    ofNibblesByte a (nibble (xField w)) (nnField w) = w := by
  rw [← BitVec.eq_of_toNat_eq hop, ofNibblesByte_fields]

theorem ofNibblesByte_eq {w : Word} {a : Nibble} {nn : Byte} (hop : (opField w).toNat = a.toNat)
    (hnn : (nnField w).toNat = nn.toNat) : ofNibblesByte a (nibble (xField w)) nn = w := by
  rw [← BitVec.eq_of_toNat_eq hnn, ofNibblesByte_op_eq hop]

theorem ofNibbles_op_eq {w : Word} {a : Nibble} (hop : (opField w).toNat = a.toNat) :
    ofNibbles a (nibble (xField w)) (nibble (yField w)) (nibble (nField w)) = w := by
  rw [← BitVec.eq_of_toNat_eq hop, ofNibbles_fields]

theorem ofNibbles_eq {w : Word} {a d : Nibble} (hop : (opField w).toNat = a.toNat)
    (hn : (nField w).val = d.toNat) : ofNibbles a (nibble (xField w)) (nibble (yField w)) d = w := by
  have low : nibble (nField w) = d := BitVec.eq_of_toNat_eq hn
  rw [← low, ofNibbles_op_eq hop]

/-! ## What a word that decodes decodes to, family by family -/

theorem encode_of_decode0 {w : Word} {i : Instr} (h : decode0 w = .ok i) : encode i = w := by
  unfold decode0 at h
  split at h <;> cases h
  all_goals exact (BitVec.eq_of_toNat_eq ‹_›).symm

theorem encode_of_decode8 {w : Word} {i : Instr} (hop : (opField w).toNat = 0x8) (h : decode8 w = .ok i) :
    encode i = w := by
  unfold decode8 at h
  split at h <;> cases h
  all_goals exact ofNibbles_eq hop ‹_›

theorem encode_of_decodeE {w : Word} {i : Instr} (hop : (opField w).toNat = 0xE) (h : decodeE w = .ok i) :
    encode i = w := by
  unfold decodeE at h
  split at h <;> cases h
  all_goals exact ofNibblesByte_eq hop ‹_›

theorem encode_of_decodeF {w : Word} {i : Instr} (hop : (opField w).toNat = 0xF) (h : decodeF w = .ok i) :
    encode i = w := by
  unfold decodeF at h
  split at h <;> cases h
  all_goals exact ofNibblesByte_eq hop ‹_›

theorem encode_of_decodeWord {w : Word} {i : Instr} (h : decodeWord w = .ok i) : encode i = w := by
  unfold decodeWord at h
  split at h
  case h_1 => exact encode_of_decode0 h
  case h_2 hop => cases h; exact ofNibbleAddr_eq hop
  case h_3 hop => cases h; exact ofNibbleAddr_eq hop
  case h_4 hop => cases h; exact ofNibblesByte_op_eq hop
  case h_5 hop => cases h; exact ofNibblesByte_op_eq hop
  case h_6 hop =>
    split at h
    · cases h; exact ofNibbles_eq hop (congrArg Fin.val ‹_›)
    · cases h
  case h_7 hop => cases h; exact ofNibblesByte_op_eq hop
  case h_8 hop => cases h; exact ofNibblesByte_op_eq hop
  case h_9 hop => exact encode_of_decode8 hop h
  case h_10 hop =>
    split at h
    · cases h; exact ofNibbles_eq hop (congrArg Fin.val ‹_›)
    · cases h
  case h_11 hop => cases h; exact ofNibbleAddr_eq hop
  case h_12 hop => cases h; exact ofNibbleAddr_eq hop
  case h_13 hop => cases h; exact ofNibblesByte_op_eq hop
  case h_14 hop => cases h; exact ofNibbles_op_eq hop
  case h_15 hop => exact encode_of_decodeE hop h
  case h_16 =>
    have := (opField w).isLt
    have hop : (opField w).toNat = 0xF := by grind
    exact encode_of_decodeF hop h

/-- Settles O1: each instruction's word is decoded back by its own lemma, and a word that decodes is made of
the fields of its format, which its family's digits and its instruction's operands are. -/
theorem decodeAndEncodeAreInverse : Obligations.DecodeAndEncodeAreInverse :=
  ⟨fun i => ⟨i.wellFormed_eq_true, decodeWord_encode i⟩, fun _ _ => encode_of_decodeWord⟩

end Sys2Proof
end

section
/-! Encoding (30_encoding.md sections 3 to 5): the opcode map has no overlap, the decoder follows it, and the
invalid encodings are the listed ones. -/

namespace Sys2Proof

/-! ## A word selected by a row is the word of an instruction -/

theorem selects_exact_iff (p w : Word) : (OpcodeRow.mk 0xFFFF p).selects w = true ↔ w = p := by
  rw [OpcodeRow.selects, beq_iff_eq, show (0xFFFF : Word) = BitVec.allOnes 16 from rfl, BitVec.and_allOnes]

theorem selects_op_iff (p w : Word) :
    (OpcodeRow.mk 0xF000 p).selects w = true ↔ ofNibbleAddr (opField w) 0 = p := by
  have masked : w &&& 0xF000 = ofNibbleAddr (opField w) 0 := by
    conv_lhs => rw [← ofNibbleAddr_fields w]
    rw [show (0xF000 : Word) = ofNibbleAddr (BitVec.allOnes 4) 0 from rfl, ofNibbleAddr_and, BitVec.and_allOnes]
    simp
  rw [OpcodeRow.selects, beq_iff_eq, masked]

theorem selects_op_n_iff (p w : Word) :
    (OpcodeRow.mk 0xF00F p).selects w = true ↔ ofNibbles (opField w) 0 0 (nibble (nField w)) = p := by
  have masked : w &&& 0xF00F = ofNibbles (opField w) 0 0 (nibble (nField w)) := by
    conv_lhs => rw [← ofNibbles_fields w]
    rw [show (0xF00F : Word) = ofNibbles (BitVec.allOnes 4) 0 0 (BitVec.allOnes 4) from rfl, ofNibbles_and,
      BitVec.and_allOnes, BitVec.and_allOnes]
    simp
  rw [OpcodeRow.selects, beq_iff_eq, masked]

theorem selects_op_nn_iff (p w : Word) :
    (OpcodeRow.mk 0xF0FF p).selects w = true ↔ ofNibblesByte (opField w) 0 (nnField w) = p := by
  have masked : w &&& 0xF0FF = ofNibblesByte (opField w) 0 (nnField w) := by
    conv_lhs => rw [← ofNibblesByte_fields w]
    rw [show (0xF0FF : Word) = ofNibblesByte (BitVec.allOnes 4) 0 (BitVec.allOnes 8) from rfl,
      ofNibblesByte_and, BitVec.and_allOnes, BitVec.and_allOnes]
    simp
  rw [OpcodeRow.selects, beq_iff_eq, masked]

theorem toNat_opField_of_selects {w p : Word} (h : (OpcodeRow.mk 0xF000 p).selects w = true) :
    (opField w).toNat = p.toNat / 4096 := by
  rw [← (selects_op_iff p w).mp h, ← toNat_opField, opField_ofNibbleAddr]

theorem toNat_fields_of_selects_n {w p : Word} (h : (OpcodeRow.mk 0xF00F p).selects w = true) :
    (opField w).toNat = p.toNat / 4096 ∧ (nField w).val = p.toNat % 16 := by
  rw [← (selects_op_n_iff p w).mp h, ← toNat_opField, ← val_nField, opField_ofNibbles, nField_ofNibbles,
    toFin_nibble]
  exact ⟨rfl, rfl⟩

theorem toNat_fields_of_selects_nn {w p : Word} (h : (OpcodeRow.mk 0xF0FF p).selects w = true) :
    (opField w).toNat = p.toNat / 4096 ∧ (nnField w).toNat = p.toNat % 256 := by
  rw [← (selects_op_nn_iff p w).mp h, ← toNat_opField, ← toNat_nnField, opField_ofNibblesByte,
    nnField_ofNibblesByte]
  exact ⟨rfl, rfl⟩

theorem encodes_addr_of_selects {w p : Word} {a : Nibble} {f : Addr12 → Instr}
    (hp : p.toNat / 4096 = a.toNat) (hf : ∀ nnn, encode (f nnn) = ofNibbleAddr a nnn)
    (h : (OpcodeRow.mk 0xF000 p).selects w = true) : ∃ i, encode i = w :=
  ⟨f (nnnField w), (hf _).trans (ofNibbleAddr_eq ((toNat_opField_of_selects h).trans hp))⟩

theorem encodes_byte_of_selects {w p : Word} {a : Nibble} {f : Reg → Byte → Instr}
    (hp : p.toNat / 4096 = a.toNat) (hf : ∀ x nn, encode (f x nn) = ofNibblesByte a (nibble x) nn)
    (h : (OpcodeRow.mk 0xF000 p).selects w = true) : ∃ i, encode i = w :=
  ⟨f (xField w) (nnField w), (hf _ _).trans (ofNibblesByte_op_eq ((toNat_opField_of_selects h).trans hp))⟩

theorem encodes_nibbles_of_selects {w p : Word} {a : Nibble} {f : Reg → Reg → Rows → Instr}
    (hp : p.toNat / 4096 = a.toNat)
    (hf : ∀ x y n, encode (f x y n) = ofNibbles a (nibble x) (nibble y) (nibble n))
    (h : (OpcodeRow.mk 0xF000 p).selects w = true) : ∃ i, encode i = w :=
  ⟨f (xField w) (yField w) (nField w), (hf _ _ _).trans (ofNibbles_op_eq ((toNat_opField_of_selects h).trans hp))⟩

theorem encodes_regs_of_selects {w p : Word} {a d : Nibble} {f : Reg → Reg → Instr}
    (hp : p.toNat / 4096 = a.toNat ∧ p.toNat % 16 = d.toNat)
    (hf : ∀ x y, encode (f x y) = ofNibbles a (nibble x) (nibble y) d)
    (h : (OpcodeRow.mk 0xF00F p).selects w = true) : ∃ i, encode i = w := by
  obtain ⟨hop, hn⟩ := toNat_fields_of_selects_n h
  exact ⟨f (xField w) (yField w), (hf _ _).trans (ofNibbles_eq (hop.trans hp.1) (hn.trans hp.2))⟩

theorem encodes_reg_of_selects {w p : Word} {a : Nibble} {nn : Byte} {f : Reg → Instr}
    (hp : p.toNat / 4096 = a.toNat ∧ p.toNat % 256 = nn.toNat)
    (hf : ∀ x, encode (f x) = ofNibblesByte a (nibble x) nn)
    (h : (OpcodeRow.mk 0xF0FF p).selects w = true) : ∃ i, encode i = w := by
  obtain ⟨hop, hnn⟩ := toNat_fields_of_selects_nn h
  exact ⟨f (xField w), (hf _).trans (ofNibblesByte_eq (hop.trans hp.1) (hnn.trans hp.2))⟩

/-- A word selected by a row of the opcode map is the word of an instruction, whose operands are the other
fields of the word (30_encoding.md R54). -/
theorem exists_encode_of_selects {w : Word} :
    ∀ r ∈ opcodeTable, r.selects w = true → ∃ i, encode i = w := by
  simp only [opcodeTable, List.forall_mem_cons]
  refine ⟨
    fun h => ⟨.cls, ((selects_exact_iff _ w).mp h).symm⟩,
    fun h => ⟨.ret, ((selects_exact_iff _ w).mp h).symm⟩,
    encodes_addr_of_selects (f := .jp) (by decide) (fun _ => rfl),
    encodes_addr_of_selects (f := .call) (by decide) (fun _ => rfl),
    encodes_byte_of_selects (f := .seImm) (by decide) (fun _ _ => rfl),
    encodes_byte_of_selects (f := .sneImm) (by decide) (fun _ _ => rfl),
    encodes_regs_of_selects (f := .seReg) (by decide) (fun _ _ => rfl),
    encodes_byte_of_selects (f := .ldImm) (by decide) (fun _ _ => rfl),
    encodes_byte_of_selects (f := .addImm) (by decide) (fun _ _ => rfl),
    encodes_regs_of_selects (f := .ldReg) (by decide) (fun _ _ => rfl),
    encodes_regs_of_selects (f := .orReg) (by decide) (fun _ _ => rfl),
    encodes_regs_of_selects (f := .andReg) (by decide) (fun _ _ => rfl),
    encodes_regs_of_selects (f := .xorReg) (by decide) (fun _ _ => rfl),
    encodes_regs_of_selects (f := .addReg) (by decide) (fun _ _ => rfl),
    encodes_regs_of_selects (f := .subReg) (by decide) (fun _ _ => rfl),
    encodes_regs_of_selects (f := .shr) (by decide) (fun _ _ => rfl),
    encodes_regs_of_selects (f := .subnReg) (by decide) (fun _ _ => rfl),
    encodes_regs_of_selects (f := .shl) (by decide) (fun _ _ => rfl),
    encodes_regs_of_selects (f := .sneReg) (by decide) (fun _ _ => rfl),
    encodes_addr_of_selects (f := .ldI) (by decide) (fun _ => rfl),
    encodes_addr_of_selects (f := .jpV0) (by decide) (fun _ => rfl),
    encodes_byte_of_selects (f := .rndImm) (by decide) (fun _ _ => rfl),
    encodes_nibbles_of_selects (f := .drw) (by decide) (fun _ _ _ => rfl),
    encodes_reg_of_selects (f := .skp) (by decide) (fun _ => rfl),
    encodes_reg_of_selects (f := .sknp) (by decide) (fun _ => rfl),
    encodes_reg_of_selects (f := .ldVxDt) (by decide) (fun _ => rfl),
    encodes_reg_of_selects (f := .ldVxK) (by decide) (fun _ => rfl),
    encodes_reg_of_selects (f := .ldDtVx) (by decide) (fun _ => rfl),
    encodes_reg_of_selects (f := .ldStVx) (by decide) (fun _ => rfl),
    encodes_reg_of_selects (f := .addI) (by decide) (fun _ => rfl),
    encodes_reg_of_selects (f := .ldF) (by decide) (fun _ => rfl),
    encodes_reg_of_selects (f := .ldB) (by decide) (fun _ => rfl),
    encodes_reg_of_selects (f := .stRegs) (by decide) (fun _ => rfl),
    encodes_reg_of_selects (f := .ldRegs) (by decide) (fun _ => rfl),
    List.forall_mem_nil _⟩

/-! ## No word is selected by two rows -/

/-- The bits that both rows fix tell the two apart. -/
def OpcodeRow.apart (p q : OpcodeRow) : Prop := p.pattern &&& q.mask ≠ q.pattern &&& p.mask

theorem OpcodeRow.not_both_select {p q : OpcodeRow} (h : p.apart q) (w : Word) :
    ¬ (p.selects w = true ∧ q.selects w = true) := by
  rintro ⟨hp, hq⟩
  rw [OpcodeRow.selects, beq_iff_eq] at hp hq
  exact h (by rw [← hp, ← hq, BitVec.and_assoc, BitVec.and_assoc, BitVec.and_comm p.mask])

theorem opcodeTable_pairwise_apart : opcodeTable.Pairwise OpcodeRow.apart := by
  unfold OpcodeRow.apart
  decide

/-! ## The two answers of the decoder -/

theorem encodingRow (i : Instr) : Laws.EncodingRow.Statement i := by
  cases i with
  | cls => exact Laws.EncodingRow.cls
  | ret => exact Laws.EncodingRow.ret
  | jp nnn => exact Laws.EncodingRow.jp nnn
  | call nnn => exact Laws.EncodingRow.call nnn
  | seImm x nn => exact Laws.EncodingRow.seImm x nn
  | sneImm x nn => exact Laws.EncodingRow.sneImm x nn
  | seReg x y => exact Laws.EncodingRow.seReg x y
  | ldImm x nn => exact Laws.EncodingRow.ldImm x nn
  | addImm x nn => exact Laws.EncodingRow.addImm x nn
  | ldReg x y => exact Laws.EncodingRow.ldReg x y
  | orReg x y => exact Laws.EncodingRow.orReg x y
  | andReg x y => exact Laws.EncodingRow.andReg x y
  | xorReg x y => exact Laws.EncodingRow.xorReg x y
  | addReg x y => exact Laws.EncodingRow.addReg x y
  | subReg x y => exact Laws.EncodingRow.subReg x y
  | shr x y => exact Laws.EncodingRow.shr x y
  | subnReg x y => exact Laws.EncodingRow.subnReg x y
  | shl x y => exact Laws.EncodingRow.shl x y
  | sneReg x y => exact Laws.EncodingRow.sneReg x y
  | ldI nnn => exact Laws.EncodingRow.ldI nnn
  | jpV0 nnn => exact Laws.EncodingRow.jpV0 nnn
  | rndImm x nn => exact Laws.EncodingRow.rndImm x nn
  | drw x y n => exact Laws.EncodingRow.drw x y n
  | skp x => exact Laws.EncodingRow.skp x
  | sknp x => exact Laws.EncodingRow.sknp x
  | ldVxDt x => exact Laws.EncodingRow.ldVxDt x
  | ldVxK x => exact Laws.EncodingRow.ldVxK x
  | ldDtVx x => exact Laws.EncodingRow.ldDtVx x
  | ldStVx x => exact Laws.EncodingRow.ldStVx x
  | addI x => exact Laws.EncodingRow.addI x
  | ldF x => exact Laws.EncodingRow.ldF x
  | ldB x => exact Laws.EncodingRow.ldB x
  | stRegs x => exact Laws.EncodingRow.stRegs x
  | ldRegs x => exact Laws.EncodingRow.ldRegs x

/-- A word that is no instruction's is answered with the word itself. -/
theorem decodeWord_total (w : Word) :
    (∃ i, decodeWord w = .ok i) ∨ decodeWord w = .error (.invalidInstruction w) := by
  unfold decodeWord decode0 decode8 decodeE decodeF
  repeat' split
  all_goals simp

/-- Settles O2: a word decodes exactly when it is the word of an instruction, which is when a row selects it;
two rows differ in a bit that both fix. -/
theorem decoderFollowsOpcodeMap : Obligations.DecoderFollowsOpcodeMap := by
  refine ⟨by decide, opcodeTable_pairwise_apart.imp OpcodeRow.not_both_select, fun w => ⟨?row, ?selected, ?other⟩⟩
  case row =>
    intro i h
    obtain ⟨hsel, hmem⟩ := encodingRow i
    exact ⟨hmem, encode_of_decodeWord h ▸ hsel⟩
  case selected =>
    rintro ⟨r, hr, hsel⟩
    obtain ⟨i, rfl⟩ := exists_encode_of_selects r hr hsel
    exact ⟨i, decodeWord_encode i⟩
  case other =>
    intro hnone
    refine (decodeWord_total w).resolve_left ?_
    rintro ⟨i, h⟩
    obtain ⟨hsel, hmem⟩ := encodingRow i
    rw [encode_of_decodeWord h, hnone _ hmem] at hsel
    cases hsel

/-! ## The invalid words, family by family (30_encoding.md section 4) -/

theorem decode0_invalid_iff (w : Word) :
    decode0 w = .error (.invalidInstruction w) ↔ w ≠ 0x00E0 ∧ w ≠ 0x00EE := by
  rw [Ne, Ne, ← BitVec.toNat_inj, ← BitVec.toNat_inj]
  unfold decode0
  split <;> simp_all

theorem decode8_invalid_iff (w : Word) :
    decode8 w = .error (.invalidInstruction w) ↔ (nField w).val ∈ [0x8, 0x9, 0xA, 0xB, 0xC, 0xD, 0xF] := by
  have := (nField w).isLt
  unfold decode8
  split
  case h_10 =>
    simp only [List.mem_cons, List.not_mem_nil]
    grind
  all_goals simp_all

theorem decodeE_invalid_iff (w : Word) :
    decodeE w = .error (.invalidInstruction w) ↔ nnField w ≠ 0x9E ∧ nnField w ≠ 0xA1 := by
  rw [Ne, Ne, ← BitVec.toNat_inj, ← BitVec.toNat_inj]
  unfold decodeE
  split <;> simp_all

theorem decodeF_invalid_iff (w : Word) :
    decodeF w = .error (.invalidInstruction w) ↔
      nnField w ∉ [0x07, 0x0A, 0x15, 0x18, 0x1E, 0x29, 0x33, 0x55, 0x65] := by
  simp only [List.mem_cons, List.not_mem_nil, ← BitVec.toNat_inj]
  unfold decodeF
  split <;> simp_all

/-- Settles O3: of the sixteen values of `op`, families 0, 8, E and F refuse what their own decoders refuse,
families 5 and 9 a low nibble other than 0, and the rest nothing. -/
theorem invalidEncodingsAreTheListedOnes : Obligations.InvalidEncodingsAreTheListedOnes := by
  intro w
  rw [← decode0_invalid_iff, ← decode8_invalid_iff, ← decodeE_invalid_iff, ← decodeF_invalid_iff]
  simp only [← BitVec.toNat_inj]
  unfold decodeWord
  split
  case h_16 =>
    have hop : (opField w).toNat = 0xF := by
      have := (opField w).isLt
      grind
    simp [hop]
  all_goals simp_all

/-- Settles O4 by running the decoder on each of the words. -/
theorem writtenOutWordsDecode : Obligations.WrittenOutWordsDecode := by
  unfold Obligations.WrittenOutWordsDecode
  decide

end Sys2Proof
end

section
/-! Control transfer (40_control_flow.md): `Bnnn`, and the call `2nnn` and the return `00EE` with the stack. -/

namespace Sys2Proof.Machine

/-! ## Faults and the stack -/

/-- A condition that is raised is the halt entry of 60_exceptions.md R166. -/
theorem State.haltsWith_raise (s : State) (f : Fault) (w : Word) : HaltsWith f.code w s (s.raise f w) := rfl

theorem State.stackFull_iff (s : State) : s.stackFull = true ↔ s.cfg.stackDepth = some s.stack.length := by
  unfold State.stackFull
  split
  case h_1 h => simp [h]
  case h_2 d h =>
    rw [beq_iff_eq, h, Option.some.injEq]
    exact eq_comm

/-- A sum of a 12-bit address and a byte does not reach the 16-bit wrap (40_control_flow.md R77). -/
theorem State.toNat_immAddrPlusV0 (s : State) (nnn : Addr12) :
    (s.immAddrPlusV0 nnn).toNat = nnn.toNat + (s.reg 0).toNat := by
  have := nnn.isLt
  have := (s.reg 0).isLt
  rw [State.immAddrPlusV0, zext16, zext16, BitVec.toNat_add, BitVec.toNat_setWidth_of_le (by decide),
    BitVec.toNat_setWidth_of_le (by decide)]
  omega

/-! ## Frame: a state whose stack and PC alone were written -/

theorem State.frame_setStack_setPc {s t : State} {ws : List Word} {w : Word}
    (ht : t = { s with stack := ws, pc := w }) :
    keepsRegs [] s t ∧ keepsIndex s t ∧ keepsTimers s t ∧ keepsScreen s t ∧ keepsMemory s t ∧
      keepsRecord s t ∧ keepsEnv s t := by
  subst ht
  exact ⟨fun r _ => State.reg_congr rfl r, rfl, ⟨rfl, rfl⟩, fun _ _ => rfl, State.keepsMemory_of_eq rfl rfl, rfl,
    ⟨rfl, rfl⟩⟩

/-! ## What `exec` does with each of them -/

theorem exec_jpV0 (nnn : Addr12) (s : State) : exec (.jpV0 nnn) s = .next (s.setPc (s.immAddrPlusV0 nnn)) := rfl

theorem exec_call_of_full (nnn : Addr12) {s : State} (h : s.stackFull = true) :
    exec (.call nnn) s = .next (s.raise .stackOverflow (encode (.call nnn))) := by
  rw [exec, execCall, if_pos h]

theorem exec_call_of_not_full (nnn : Addr12) {s : State} (h : ¬ s.stackFull = true) :
    exec (.call nnn) s = .next { s with stack := (s.pc + 2) :: s.stack, pc := immAddr nnn } := by
  rw [exec, execCall, if_neg h]
  rfl

theorem exec_ret_of_empty {s : State} (h : s.stack = []) :
    exec .ret s = .next (s.raise .stackUnderflow (encode .ret)) := by
  simp only [exec, execRet, h]

theorem exec_ret_of_cons {s : State} {target : Word} {rest : List Word} (h : s.stack = target :: rest) :
    exec .ret s = .next { s with stack := rest, pc := target } := by
  simp only [exec, execRet, h, State.setPc]

/-! ## The obligations -/

/-- Settles O31: the one update is a write of PC, and the sum stays below the 16-bit wrap. -/
theorem jumpPlusV0AddsWithoutMasking : Obligations.JumpPlusV0AddsWithoutMasking :=
  fun nnn => ⟨decodeWord_jpV0 nnn, fun s =>
    ⟨_, exec_jpV0 nnn s, s.toNat_immAddrPlusV0 nnn, s.keepsRegs_setPc _, s.keepsAllButRegs_setPc _⟩⟩

/-- Settles O32: the overflow test decides between the halt and the push. -/
theorem callPushesReturnAddress : Obligations.CallPushesReturnAddress := by
  refine fun nnn => ⟨decodeWord_call nnn, fun s => ⟨fun full => ?overflow, fun notFull => ?push⟩⟩
  case overflow => exact ⟨_, exec_call_of_full nnn (s.stackFull_iff.mpr full), s.haltsWith_raise _ _⟩
  case push =>
    exact ⟨_, exec_call_of_not_full nnn (mt s.stackFull_iff.mp notFull), toNat_immAddr nnn, rfl,
      State.frame_setStack_setPc rfl⟩

/-- Settles O33: the stack's shape decides between the halt and the pop. -/
theorem returnPopsReturnAddress : Obligations.ReturnPopsReturnAddress := by
  refine ⟨decodeWord_ret, fun s => ⟨fun empty => ?underflow, fun target rest pushed => ?pop⟩⟩
  case underflow => exact ⟨_, exec_ret_of_empty empty, s.haltsWith_raise _ _⟩
  case pop => exact ⟨_, exec_ret_of_cons pushed, rfl, rfl, State.frame_setStack_setPc rfl⟩

/-- Settles O28: the call leaves its return address on top of the old stack, where the return finds it. -/
theorem callThenReturnComesBack : Obligations.CallThenReturnComesBack := by
  intro s t u nnn notFull call sameStack
  have hfull : ¬ s.stackFull = true := fun full => notFull _ (s.stackFull_iff.mp full) rfl
  rw [exec_call_of_not_full nnn hfull] at call
  cases call
  exact ⟨_, exec_ret_of_cons sameStack, rfl, rfl⟩

end Sys2Proof.Machine
end

section
/-! The subtractions `8xy5` and `8xy7` (41_alu.md), the addition to I `Fx1E` (42_index_memory.md), the key skips
`Ex9E` and `ExA1` (44_key_timer_random.md), and the framebuffer's read port (00_scope.md section 4). -/

namespace Sys2Proof.Machine

/-! ## Subtraction (41_alu.md R102) -/

theorem toNat_aluSub_r (a b : Byte) : ((aluSub a b).r.toNat : Int) = (a.toNat - b.toNat : Int) % 256 := by
  have nonneg : 0 ≤ (a.toNat - b.toNat : Int) % 256 := Int.emod_nonneg _ (by decide)
  rw [aluSub, BitVec.toNat_ofInt]
  exact Int.toNat_of_nonneg nonneg

theorem flagByte_aluSub_f (a b : Byte) : flagByte (aluSub a b).f = if b.toNat < a.toNat then 1 else 0 := by
  simp only [flagByte, aluSub, decide_eq_true_eq, gt_iff_lt]

theorem exec_subReg (x y : Reg) (s : State) :
    exec (.subReg x y) s = .next (s.advance.writeFlagThenReg x (aluSub (s.reg x) (s.reg y))) := rfl

theorem exec_subnReg (x y : Reg) (s : State) :
    exec (.subnReg x y) s = .next (s.advance.writeFlagThenReg x (aluSub (s.reg y) (s.reg x))) := rfl

/-- What a subtraction writes, for either order of the operands. -/
theorem State.writeFlagThenReg_aluSub (s : State) (x : Reg) (a b : Byte) :
    (((s.writeFlagThenReg x (aluSub a b)).reg x).toNat : Int) = (a.toNat - b.toNat : Int) % 256 ∧
      (x ≠ VF → (s.writeFlagThenReg x (aluSub a b)).reg VF = if b.toNat < a.toNat then 1 else 0) := by
  refine ⟨?_, fun hx => ?_⟩
  · rw [State.reg_writeFlagThenReg_self, toNat_aluSub_r]
  · rw [State.reg_writeFlagThenReg_VF _ _ hx, flagByte_aluSub_f]

/-- Settles O38: the two instructions write what one subtraction gives, with the operands exchanged, of the old
values. -/
theorem subtractionsSetStrictNoBorrow : Obligations.SubtractionsSetStrictNoBorrow := by
  refine fun x y => ⟨decodeWord_subReg x y, decodeWord_subnReg x y, fun s => ⟨?sub, ?subn⟩⟩
  case sub =>
    obtain ⟨difference, flag⟩ := s.advance.writeFlagThenReg_aluSub x (s.reg x) (s.reg y)
    exact ⟨_, exec_subReg x y s, difference, flag, s.frame_writeFlagThenReg_advance x _⟩
  case subn =>
    obtain ⟨difference, flag⟩ := s.advance.writeFlagThenReg_aluSub x (s.reg y) (s.reg x)
    exact ⟨_, exec_subnReg x y s, difference, flag, s.frame_writeFlagThenReg_advance x _⟩

/-! ## Addition to I (42_index_memory.md R111) -/

theorem exec_addI (x : Reg) (s : State) : exec (.addI x) s =
    .next ((s.advance.setIndex (BitVec.ofNat 16 (s.indexSum x))).setFlagIfIndexOver (s.indexSum x)) := rfl

/-- The frame of a state whose I, PC and VF alone were written. -/
theorem State.frame_setFlagIfIndexOver {s t : State} {w : Word} {k : Nat}
    (ht : t = (s.advance.setIndex w).setFlagIfIndexOver k) :
    keepsRegs [VF] s t ∧ t.pc = s.pc + 2 ∧ keepsStack s t ∧ keepsTimers s t ∧ keepsScreen s t ∧
      keepsMemory s t ∧ keepsRecord s t ∧ keepsEnv s t := by
  subst ht
  refine ⟨fun r hr => ?regs, by simp, by simp [keepsStack], by simp [keepsTimers], by simp [keepsScreen],
    State.keepsMemory_of_eq (by simp) (by simp), by simp [keepsRecord, State.faultReport], by simp [keepsEnv]⟩
  case regs =>
    have hr : r ≠ VF := List.ne_of_not_mem_cons hr
    rw [State.reg_setFlagIfIndexOver, if_neg fun h => hr h.2]
    rfl

/-- Settles O41: I is written once, with the sum reduced to 16 bits, and VF only when the unreduced sum
reaches 4096. -/
theorem addToIndexSetsFlagAt4096 : Obligations.AddToIndexSetsFlagAt4096 := by
  refine fun x => ⟨decodeWord_addI x, fun s => ⟨_, exec_addI x s, ?sum, ?flag, State.frame_setFlagIfIndexOver rfl⟩⟩
  case sum => rw [State.setFlagIfIndexOver_i, State.setIndex_i, BitVec.toNat_ofNat, State.indexSum]
  case flag => simp only [State.reg_setFlagIfIndexOver, and_true]; rfl

/-! ## Key skips (44_key_timer_random.md R141, R142, R147) -/

theorem State.keyMatches_of_no_key {s : State} (x : Reg) (h : s.env.key = none) : s.keyMatches x = false := by
  simp only [State.keyMatches, h]

theorem State.keyMatches_of_key {s : State} {key : Key} (x : Reg) (h : s.env.key = some key) :
    s.keyMatches x = decide (key.val = (s.reg x).toNat) := by
  simp only [State.keyMatches, h]
  rw [Bool.eq_iff_iff, beq_iff_eq, decide_eq_true_iff, ← BitVec.toNat_inj, toNat_ofNat_key]

theorem exec_skp (x : Reg) (s : State) : exec (.skp x) s = .next (s.advance.skipIf (s.keyMatches x)) := rfl

theorem exec_sknp (x : Reg) (s : State) : exec (.sknp x) s = .next (s.advance.skipIf (!s.keyMatches x)) := rfl

/-- Settles O49: each of the two is the advance and a skip on one comparison, which fails with no key. -/
theorem keySkipsCompareTheWholeRegister : Obligations.KeySkipsCompareTheWholeRegister := by
  refine fun x => ⟨decodeWord_skp x, decodeWord_sknp x, fun s => ⟨fun noKey => ?none, fun key hkey => ?some⟩⟩
  case none =>
    rw [exec_skp, exec_sknp, State.skipIf_advance, State.skipIf_advance, State.keyMatches_of_no_key x noKey]
    exact ⟨rfl, rfl⟩
  case some =>
    rw [exec_skp, exec_sknp, State.skipIf_advance, State.skipIf_advance, State.keyMatches_of_key x hkey]
    simp

/-! ## The read port (10_state.md R19) -/

/-- Settles O47: quotient and remainder by 64 of `row * 64 + col` are the row and the column. -/
theorem readPortIsRowMajor : Obligations.ReadPortIsRowMajor := by
  intro s r c
  have hr := r.isLt
  have hc := c.isLt
  have address : (BitVec.ofNat 11 (r.val * 64 + c.val)).toNat = r.val * 64 + c.val := by
    rw [BitVec.toNat_ofNat]
    omega
  have row : rowIndex ((r.val * 64 + c.val) / 64) = r := Fin.ext (by simp only [rowIndex]; omega)
  have column : colIndex (r.val * 64 + c.val) = c := Fin.ext (by simp only [colIndex]; omega)
  rw [State.fbRdata, State.fbRead, address, row, column]

end Sys2Proof.Machine
end

section
/-! Memory: the canonical list, the fetch (20_memory.md), and the instructions `Fx33`, `Fx55` and `Fx65`
(42_index_memory.md). -/

namespace Sys2Proof.Machine

/-! ## The canonical list of a memory -/

/-- What an address reads as tells whether it is listed, for a listed byte is never the blank one. -/
theorem Memory.find_eq_of_read_eq {c : Config} {m m' : List Host.Cell} (hm : Memory.wf c m) (hm' : Memory.wf c m')
    {a : Nat} (h : Memory.read c m a = Memory.read c m' a) : Memory.find m a = Memory.find m' a := by
  unfold Memory.read at h
  cases hf : Memory.find m a with
  | none =>
    cases hf' : Memory.find m' a with
    | none => rfl
    | some y =>
      rw [hf, hf'] at h
      exact absurd h.symm (Memory.find_some_ne_blank hm' hf')
  | some x =>
    cases hf' : Memory.find m' a with
    | none =>
      rw [hf, hf'] at h
      exact absurd h (Memory.find_some_ne_blank hm hf)
    | some y =>
      rw [hf, hf'] at h
      exact congrArg some h

theorem Memory.find_cons_self (b : Nat) (x : Byte) (m : List Host.Cell) : Memory.find ((b, x) :: m) b = some x :=
  if_pos rfl

theorem Memory.find_cons_of_ne {a b : Nat} (x : Byte) (m : List Host.Cell) (h : a ≠ b) :
    Memory.find ((b, x) :: m) a = Memory.find m a := if_neg h

/-- A list with rising addresses does not list an address below its first one. -/
theorem Memory.find_eq_none_of_lt_head {a b : Nat} {y : Byte} {m : List Host.Cell}
    (h : ((b, y) :: m).Pairwise (fun p q => p.1 < q.1)) (hab : a < b) : Memory.find ((b, y) :: m) a = none := by
  obtain ⟨hhead, -⟩ := List.pairwise_cons.mp h
  refine Memory.find_eq_none_of_lt fun p hp => ?_
  rcases List.mem_cons.mp hp with rfl | hp
  · exact hab
  · exact Nat.lt_trans hab (hhead p hp)

/-- Lists with rising addresses that find the same are the same. -/
theorem Memory.eq_of_find_eq {m m' : List Host.Cell} (hm : m.Pairwise (fun p q => p.1 < q.1))
    (hm' : m'.Pairwise (fun p q => p.1 < q.1)) (h : ∀ a, Memory.find m a = Memory.find m' a) : m = m' := by
  induction m generalizing m' with
  | nil =>
    cases m' with
    | nil => rfl
    | cons q m' =>
      have listed := h q.1
      rw [Memory.find_cons_self] at listed
      cases listed
  | cons p m ih =>
    obtain ⟨b, x⟩ := p
    cases m' with
    | nil =>
      have listed := h b
      rw [Memory.find_cons_self] at listed
      cases listed
    | cons q m' =>
      obtain ⟨b', x'⟩ := q
      obtain ⟨hhead, htail⟩ := List.pairwise_cons.mp hm
      obtain ⟨hhead', htail'⟩ := List.pairwise_cons.mp hm'
      rcases Nat.lt_trichotomy b b' with hlt | rfl | hlt
      · have listed := h b
        rw [Memory.find_cons_self, Memory.find_eq_none_of_lt_head hm' hlt] at listed
        cases listed
      · have sameByte := h b
        rw [Memory.find_cons_self, Memory.find_cons_self] at sameByte
        cases sameByte
        refine congrArg (List.cons (b, x)) (ih htail htail' fun a => ?_)
        by_cases ha : a = b
        · rw [ha, Memory.find_eq_none_of_lt hhead, Memory.find_eq_none_of_lt hhead']
        · rw [← Memory.find_cons_of_ne x m ha, ← Memory.find_cons_of_ne x m' ha, h a]
      · have listed := h b'
        rw [Memory.find_cons_self, Memory.find_eq_none_of_lt_head hm hlt] at listed
        cases listed

/-- Settles O25: what is read decides what is listed, and the rising order decides where. -/
theorem canonicalMemoryIsUnique : Obligations.CanonicalMemoryIsUnique :=
  fun _ _ _ hm hm' h => Memory.eq_of_find_eq hm.1 hm'.1 fun a => Memory.find_eq_of_read_eq hm hm' (h a)

/-! ## The fetch (20_memory.md R32) -/

theorem State.fetch_of_le {s : State} (h : s.pc.toNat + 2 ≤ 4096) :
    s.fetch = some (s.readByte s.pc.toNat ++ s.readByte (s.pc.toNat + 1)) := by
  rw [State.fetch_eq, if_pos h]

theorem State.fetch_of_lt {s : State} (h : 4094 < s.pc.toNat) : s.fetch = none := by
  rw [State.fetch_eq, if_neg (show ¬ s.pc.toNat + 2 ≤ 4096 by omega)]

/-- Settles O5: the first byte of a concatenation is the more significant one. -/
theorem fetchIsBigEndian : Obligations.FetchIsBigEndian := by
  refine fun s h => ⟨_, State.fetch_of_le h, ?_⟩
  rw [toNat_append_eq]
  omega

/-- A fetch reads memory as the last writer left it: there is no fetch buffer (decision D17). -/
theorem State.fetch_of_same_memory {t u : State} (hc : u.cfg = t.cfg) (hm : u.mem = t.mem)
    (hp : u.pc.toNat + 2 ≤ 4096) :
    u.fetch = some (t.readByte u.pc.toNat ++ t.readByte (u.pc.toNat + 1)) := by
  rw [State.fetch_of_le hp, State.readByte_congr hc hm, State.readByte_congr hc hm]

/-! ## The bytes stored -/

theorem State.getElem_regRun (s : State) (x : Reg) {k : Nat} (hk : k < (s.regRun x).length) (hk' : k < 16) :
    (s.regRun x)[k] = s.reg ⟨k, hk'⟩ := by
  simp only [State.regRun, List.getElem_take, Vector.getElem_toList, State.reg, Vector.get_eq_getElem]

theorem length_decimalDigits (b : Byte) : (decimalDigits b).length = 3 := rfl

theorem toNat_getElem_decimalDigits (b : Byte) {d : Nat} (hd : d < (decimalDigits b).length) :
    (decimalDigits b)[d].toNat = b.toNat / 10 ^ (2 - d) % 10 := by
  have hb := b.isLt
  have small : ∀ n, n < 256 → (BitVec.ofNat 8 n).toNat = n := fun n hn => Nat.mod_eq_of_lt hn
  rw [length_decimalDigits] at hd
  match d, hd with
  | 0, _ => exact (small _ (by omega)).trans (by omega)
  | 1, _ => exact (small _ (by omega)).trans (by omega)
  | 2, _ => exact (small _ (by omega)).trans (by omega)

/-! ## Frames: a state whose memory and PC, or whose registers and PC, alone were written -/

theorem State.frame_storeBytes_advance {s t : State} {base len : Nat} {xs : List Byte} (hlen : xs.length = len)
    (ht : t = s.advance.storeBytes base xs) :
    keepsMemoryOutside base len s t ∧ keepsRegs [] s t ∧ t.pc = s.pc + 2 ∧ keepsIndex s t ∧ keepsStack s t ∧
      keepsTimers s t ∧ keepsScreen s t ∧ keepsRecord s t ∧ keepsEnv s t := by
  subst ht
  refine ⟨fun a ha => ?memory, fun r _ => State.reg_congr (by simp) r, by simp, by simp [keepsIndex],
    by simp [keepsStack], by simp [keepsTimers], by simp [keepsScreen], by simp [keepsRecord, State.faultReport],
    by simp [keepsEnv]⟩
  case memory =>
    rw [State.readByte_storeBytes_outside _ _ _ (hlen ▸ ha)]
    rfl

theorem State.keepsAllButRegs_setRegsFrom_advance (s : State) (k : Nat) (bs : List Byte) :
    KeepsAllButRegs s (s.advance.setRegsFrom k bs) where
  index := by simp [keepsIndex]
  stack := by simp [keepsStack]
  timers := by simp [keepsTimers]
  screen := by simp [keepsScreen]
  memory := State.keepsMemory_of_eq (by simp) (by simp)
  record := by simp [keepsRecord, State.faultReport]
  env := by simp [keepsEnv]

/-! ## What `exec` does with each of them -/

theorem exec_ldB_of_le (x : Reg) {s : State} (h : s.i.toNat + 3 ≤ memSize) :
    exec (.ldB x) s = .next (s.advance.storeBytes s.i.toNat (decimalDigits (s.reg x))) := by
  simp only [exec, execLdB, State.store_eq, State.indexBase, length_decimalDigits, h, or_true, if_true]

theorem exec_ldB_of_lt (x : Reg) {s : State} (h : memSize < s.i.toNat + 3) :
    exec (.ldB x) s = .next (s.raise .addressOutOfRange (encode (.ldB x))) := by
  have out : ¬ (3 = 0 ∨ s.i.toNat + 3 ≤ memSize) := by omega
  simp only [exec, execLdB, State.store_eq, State.indexBase, length_decimalDigits, out, if_false]

theorem exec_stRegs_of_le (x : Reg) {s : State} (h : s.i.toNat + (x.val + 1) ≤ memSize) :
    exec (.stRegs x) s = .next (s.advance.storeBytes s.i.toNat (s.regRun x)) := by
  simp only [exec, execStRegs, State.store_eq, State.indexBase, State.length_regRun, h, or_true, if_true]

theorem exec_stRegs_of_lt (x : Reg) {s : State} (h : memSize < s.i.toNat + (x.val + 1)) :
    exec (.stRegs x) s = .next (s.raise .addressOutOfRange (encode (.stRegs x))) := by
  have out : ¬ (x.val + 1 = 0 ∨ s.i.toNat + (x.val + 1) ≤ memSize) := by omega
  simp only [exec, execStRegs, State.store_eq, State.indexBase, State.length_regRun, out, if_false]

theorem exec_ldRegs_of_le (x : Reg) {s : State} (h : s.i.toNat + (x.val + 1) ≤ memSize) :
    exec (.ldRegs x) s = .next
      (s.advance.setRegsFrom 0 ((List.range (x.val + 1)).map fun k => s.readByte (s.i.toNat + k))) := by
  simp only [exec, execLdRegs, State.load_eq, State.indexBase, h, or_true, if_true]

theorem exec_ldRegs_of_lt (x : Reg) {s : State} (h : memSize < s.i.toNat + (x.val + 1)) :
    exec (.ldRegs x) s = .next (s.raise .addressOutOfRange (encode (.ldRegs x))) := by
  have out : ¬ (x.val + 1 = 0 ∨ s.i.toNat + (x.val + 1) ≤ memSize) := by omega
  simp only [exec, execLdRegs, State.load_eq, State.indexBase, out, if_false]

/-! ## What each of them leaves in its range -/

/-- Fx55 leaves Vr at `I + r` (R114). -/
theorem readByte_stRegs {s : State} (hm : Memory.wf s.cfg s.mem) {x : Reg}
    (h : s.i.toNat + (x.val + 1) ≤ memSize) {r : Reg} (hr : r.val ≤ x.val) :
    (s.advance.storeBytes s.i.toNat (s.regRun x)).readByte (s.i.toNat + r.val) = s.reg r := by
  have hlen := s.length_regRun x
  have hr : r.val < (s.regRun x).length := by omega
  rw [State.readByte_storeBytes_inside (s := s.advance) hm (by omega) hr, State.getElem_regRun s x hr r.isLt]

/-- Fx33 leaves decimal digit `d` of Vx at `I + d`, hundreds first (R113). -/
theorem toNat_readByte_ldB {s : State} (hm : Memory.wf s.cfg s.mem) (x : Reg)
    (h : s.i.toNat + 3 ≤ memSize) {d : Nat} (hd : d ≤ 2) :
    ((s.advance.storeBytes s.i.toNat (decimalDigits (s.reg x))).readByte (s.i.toNat + d)).toNat =
      (s.reg x).toNat / 10 ^ (2 - d) % 10 := by
  have hlen := length_decimalDigits (s.reg x)
  have hd : d < (decimalDigits (s.reg x)).length := by omega
  rw [State.readByte_storeBytes_inside (s := s.advance) hm (by omega) hd, toNat_getElem_decimalDigits]

/-- Fx65 loads Vr from `I + r` for `r` up to `x` and keeps the registers above (R115). -/
theorem reg_ldRegs (s : State) (x r : Reg) :
    (s.advance.setRegsFrom 0 ((List.range (x.val + 1)).map fun k => s.readByte (s.i.toNat + k))).reg r =
      if r.val ≤ x.val then s.readByte (s.i.toNat + r.val) else s.reg r := by
  rw [State.reg_setRegsFrom, List.length_map, List.length_range]
  by_cases hr : r.val ≤ x.val
  · have hin : r.val < x.val + 1 := by omega
    rw [if_pos (by omega), if_pos hr, Nat.sub_zero]
    simp [List.getD_eq_getElem?_getD, hin]
  · rw [if_neg (by omega), if_neg hr]
    rfl

/-! ## The obligations -/

/-- Settles O42: the bound check decides between the halt and the store of the three digits. -/
theorem storeDecimalWritesThreeDigits : Obligations.StoreDecimalWritesThreeDigits := by
  refine fun x => ⟨decodeWord_ldB x, fun s => ⟨fun hout => ?halt, fun hin hm => ?store⟩⟩
  case halt => exact ⟨_, exec_ldB_of_lt x (show 4096 < s.i.toNat + 3 by omega), s.haltsWith_raise _ _⟩
  case store =>
    have h : s.i.toNat + 3 ≤ 4096 := by omega
    refine ⟨_, exec_ldB_of_le x h, ?hundreds, ?tens, ?ones,
      State.frame_storeBytes_advance (length_decimalDigits _) rfl⟩
    case hundreds =>
      have := (s.reg x).isLt
      exact (toNat_readByte_ldB hm x h (d := 0) (by decide)).trans (by omega)
    case tens => exact toNat_readByte_ldB hm x h (d := 1) (by decide)
    case ones => exact (toNat_readByte_ldB hm x h (d := 2) (by decide)).trans (by omega)

/-- Settles O43: the bound check decides between the halt and the store of the run of registers. -/
theorem storeRegistersWritesTheRun : Obligations.StoreRegistersWritesTheRun := by
  refine fun x => ⟨decodeWord_stRegs x, fun s => ⟨fun hout => ?halt, fun hin hm => ?store⟩⟩
  case halt => exact ⟨_, exec_stRegs_of_lt x (show 4096 < s.i.toNat + (x.val + 1) by omega), s.haltsWith_raise _ _⟩
  case store =>
    have h : s.i.toNat + (x.val + 1) ≤ 4096 := by omega
    exact ⟨_, exec_stRegs_of_le x h, fun r hr => readByte_stRegs hm h hr,
      State.frame_storeBytes_advance (s.length_regRun x) rfl⟩

/-- Settles O44: the bound check decides between the halt and the load of the run of registers. -/
theorem loadRegistersReadsTheRun : Obligations.LoadRegistersReadsTheRun := by
  refine fun x => ⟨decodeWord_ldRegs x, fun s => ⟨fun hout => ?halt, fun hin => ?load⟩⟩
  case halt => exact ⟨_, exec_ldRegs_of_lt x (show 4096 < s.i.toNat + (x.val + 1) by omega), s.haltsWith_raise _ _⟩
  case load =>
    have h : s.i.toNat + (x.val + 1) ≤ 4096 := by omega
    refine ⟨_, exec_ldRegs_of_le x h, fun r hr => ?_, fun r hr => ?_, by simp,
      s.keepsAllButRegs_setRegsFrom_advance _ _⟩
    · rw [reg_ldRegs, if_pos hr]
    · rw [reg_ldRegs, if_neg (by omega)]

/-- Settles O26: the fetch reads memory as the store left it, and of each of its two addresses the store says
what it holds, inside its range and outside. -/
theorem storeIsSeenByTheNextFetch : Obligations.StoreIsSeenByTheNextFetch := by
  refine fun s x hm => ⟨fun hin => ?registers, fun hin => ?digits⟩
  case registers =>
    have h : s.i.toNat + (x.val + 1) ≤ 4096 := by omega
    obtain ⟨outside, -⟩ := State.frame_storeBytes_advance (s := s) (base := s.i.toNat) (s.length_regRun x) rfl
    refine ⟨_, exec_stRegs_of_le x h, fun u hc hu hp =>
      ⟨_, _, State.fetch_of_same_memory hc hu hp, ?_, ?_, ?_, ?_⟩⟩
    · exact fun r hr e => e ▸ readByte_stRegs hm h hr
    · exact fun r hr e => e ▸ readByte_stRegs hm h hr
    · exact fun ho => outside _ (by omega)
    · exact fun ho => outside _ (by omega)
  case digits =>
    have h : s.i.toNat + 3 ≤ 4096 := by omega
    obtain ⟨outside, -⟩ := State.frame_storeBytes_advance (s := s) (base := s.i.toNat)
      (length_decimalDigits (s.reg x)) rfl
    refine ⟨_, exec_ldB_of_le x h, fun u hc hu hp =>
      ⟨_, _, State.fetch_of_same_memory hc hu hp, ?_, ?_, ?_, ?_⟩⟩
    · exact fun d hd e => e ▸ toNat_readByte_ldB hm x h hd
    · exact fun d hd e => e ▸ toNat_readByte_ldB hm x h hd
    · exact fun ho => outside _ (by omega)
    · exact fun ho => outside _ (by omega)

/-- Settles O27: the load reads back, register by register, what the store left at `I + r`. -/
theorem storeThenLoadRestoresRegisters : Obligations.StoreThenLoadRestoresRegisters := by
  intro s t u x hm hin store hc hu hi
  have h : s.i.toNat + (x.val + 1) ≤ 4096 := by omega
  rw [exec_stRegs_of_le x h] at store
  cases store
  rw [State.storeBytes_i, State.advance_i] at hi
  refine ⟨_, exec_ldRegs_of_le x (hi ▸ h), fun r hr => ?_, fun r hr => ?_⟩
  · rw [reg_ldRegs, if_pos hr, State.readByte_congr hc hu, hi, readByte_stRegs hm h hr]
  · rw [reg_ldRegs, if_neg (by omega)]

end Sys2Proof.Machine
end

section
/-! Display (43_display.md): `Dxyn`, as the list of the positions that the sprite's 1-bits land on, which are
all different, so that each of them is toggled once. -/

namespace Sys2Proof.Machine

/-! ## The positions of a sprite's 1-bits -/

theorem mem_bytePoints {vx : Nat} {r : Fin 32} {byte : Byte} {p : Point} :
    p ∈ bytePoints vx r byte ↔ ∃ k, k < 8 ∧ byte.getLsbD (7 - k) = true ∧ p = (r, colIndex (vx + k)) := by
  simp only [bytePoints, List.mem_map, List.mem_filter, List.mem_range, and_assoc, eq_comm]

theorem mem_rowPoints {vx vy row : Nat} {rows : List Byte} {p : Point} :
    p ∈ rowPoints vx vy row rows ↔ ∃ j k, ∃ hj : j < rows.length, k < 8 ∧ rows[j].getLsbD (7 - k) = true ∧
      p = (rowIndex (vy + (row + j)), colIndex (vx + k)) := by
  induction rows generalizing row with
  | nil => simp [rowPoints]
  | cons byte rest ih =>
    rw [rowPoints, List.mem_append, mem_bytePoints, ih]
    constructor
    · rintro (⟨k, hk, hbit, rfl⟩ | ⟨j, k, hj, hk, hbit, rfl⟩)
      · exact ⟨0, k, Nat.succ_pos _, hk, hbit, rfl⟩
      · exact ⟨j + 1, k, Nat.succ_lt_succ hj, hk, hbit, by rw [Nat.add_right_comm row 1 j, Nat.add_assoc row]⟩
    · rintro ⟨j, k, hj, hk, hbit, rfl⟩
      cases j with
      | zero => exact .inl ⟨k, hk, hbit, rfl⟩
      | succ j =>
        exact .inr ⟨j, k, Nat.lt_of_succ_lt_succ hj, hk, hbit, by rw [Nat.add_right_comm row 1 j, Nat.add_assoc row]⟩

/-- Eight columns in a row are different modulo 64. -/
theorem colIndex_inj {vx k k' : Nat} (hk : k < 8) (hk' : k' < 8) (h : colIndex (vx + k) = colIndex (vx + k')) :
    k = k' := by
  have := congrArg Fin.val h
  simp only [colIndex] at this
  omega

/-- At most 32 rows in a row are different modulo 32. -/
theorem rowIndex_inj {a b : Nat} (hab : a ≤ b) (hb : b < a + 32) (h : rowIndex a = rowIndex b) : a = b := by
  have := congrArg Fin.val h
  simp only [rowIndex] at this
  omega

theorem bytePoints_nodup (vx : Nat) (r : Fin 32) (byte : Byte) : (bytePoints vx r byte).Nodup := by
  refine List.Nodup.map_on (fun k hk k' hk' h => ?_) (List.nodup_range.filter _)
  rw [List.mem_filter, List.mem_range] at hk hk'
  exact colIndex_inj hk.1 hk'.1 (congrArg Prod.snd h)

theorem rowPoints_nodup (vx vy row : Nat) {rows : List Byte} (h : rows.length ≤ 32) :
    (rowPoints vx vy row rows).Nodup := by
  induction rows generalizing row with
  | nil => exact List.nodup_nil
  | cons byte rest ih =>
    rw [List.length_cons] at h
    refine List.Nodup.append (bytePoints_nodup _ _ _) (ih _ (by omega)) fun p hp hp' => ?_
    obtain ⟨k, -, -, rfl⟩ := mem_bytePoints.mp hp
    obtain ⟨j, k', hj, -, -, h'⟩ := mem_rowPoints.mp hp'
    have sameRow := rowIndex_inj (by omega) (by omega) (congrArg Prod.fst h')
    omega

/-! ## Plotting different positions -/

theorem Blit.plotAll_cons (b : Blit) (p : Point) (ps : List Point) :
    b.plotAll (p :: ps) = (b.plot p.1 p.2).plotAll ps := rfl

theorem Blit.pixel_plotAll {ps : List Point} (h : ps.Nodup) (b : Blit) (r : Fin 32) (c : Fin 64) :
    (b.plotAll ps).fb.pixel r c = if (r, c) ∈ ps then !b.fb.pixel r c else b.fb.pixel r c := by
  induction ps generalizing b with
  | nil => rfl
  | cons p ps ih =>
    obtain ⟨hp, hps⟩ := List.nodup_cons.mp h
    rw [Blit.plotAll_cons, ih hps, Blit.pixel_plot]
    by_cases he : (r, c) = p
    · subst he
      simp [hp]
    · have hne : ¬ (r = p.1 ∧ c = p.2) := fun h => he (Prod.ext h.1 h.2)
      simp [he, hne]

theorem Blit.hit_plotAll {ps : List Point} (h : ps.Nodup) (b : Blit) :
    (b.plotAll ps).hit = true ↔ b.hit = true ∨ ∃ p ∈ ps, b.fb.pixel p.1 p.2 = true := by
  induction ps generalizing b with
  | nil => simp [Blit.plotAll]
  | cons p ps ih =>
    obtain ⟨hp, hps⟩ := List.nodup_cons.mp h
    have untouched : ∀ q ∈ ps, (b.plot p.1 p.2).fb.pixel q.1 q.2 = b.fb.pixel q.1 q.2 := by
      intro q hq
      have hne : ¬ (q.1 = p.1 ∧ q.2 = p.2) := fun e => hp (Prod.ext e.1 e.2 ▸ hq)
      rw [Blit.pixel_plot, if_neg hne]
    have later : (∃ q ∈ ps, (b.plot p.1 p.2).fb.pixel q.1 q.2 = true) ↔ ∃ q ∈ ps, b.fb.pixel q.1 q.2 = true :=
      exists_congr fun q => and_congr_right fun hq => by rw [untouched q hq]
    rw [Blit.plotAll_cons, ih hps, Blit.hit_plot, later, Bool.or_eq_true, List.exists_mem_cons_iff]
    exact or_assoc.trans or_left_comm

/-! ## One draw of a state -/

/-- The positions that Dxyn of a state plots (43_display.md R131, R132). -/
def State.spritePoints (s : State) (x y : Reg) (n : Rows) : List Point :=
  rowPoints (s.reg x).toNat (s.reg y).toNat 0 ((List.range n.val).map fun k => s.readByte (s.i.toNat + k))

/-- The framebuffer and the collision of Dxyn of a state, in range. -/
def State.drawn (s : State) (x y : Reg) (n : Rows) : Blit := Blit.plotAll ⟨s.fb, false⟩ (s.spritePoints x y n)

theorem State.mem_spritePoints {s : State} {x y : Reg} {n : Rows} {p : Point} :
    p ∈ s.spritePoints x y n ↔ ∃ row k, row < n.val ∧ k < 8 ∧ s.spriteBit row k = true ∧
      p = (rowIndex ((s.reg y).toNat + row), colIndex ((s.reg x).toNat + k)) := by
  simp only [State.spritePoints, mem_rowPoints, State.spriteBit, List.getElem_map, List.getElem_range,
    List.length_map, List.length_range, Nat.zero_add, exists_prop]

theorem State.spritePoints_nodup (s : State) (x y : Reg) (n : Rows) : (s.spritePoints x y n).Nodup := by
  refine rowPoints_nodup _ _ _ ?_
  rw [List.length_map, List.length_range]
  omega

theorem State.pixel_drawn (s : State) (x y : Reg) (n : Rows) (r : Fin 32) (c : Fin 64) :
    (s.drawn x y n).fb.pixel r c =
      if (r, c) ∈ s.spritePoints x y n then !s.fb.pixel r c else s.fb.pixel r c :=
  Blit.pixel_plotAll (s.spritePoints_nodup x y n) _ r c

theorem State.hit_drawn (s : State) (x y : Reg) (n : Rows) :
    (s.drawn x y n).hit = true ↔ ∃ p ∈ s.spritePoints x y n, s.fb.pixel p.1 p.2 = true :=
  (Blit.hit_plotAll (s.spritePoints_nodup x y n) _).trans (or_iff_right Bool.false_ne_true)

/-- A property of some position of the sprite, by row and bit. -/
theorem State.exists_mem_spritePoints {s : State} {x y : Reg} {n : Rows} {P : Point → Prop} :
    (∃ p ∈ s.spritePoints x y n, P p) ↔ ∃ row k, row < n.val ∧ k < 8 ∧ s.spriteBit row k = true ∧
      P (rowIndex ((s.reg y).toNat + row), colIndex ((s.reg x).toNat + k)) := by
  constructor
  · rintro ⟨p, hp, hP⟩
    obtain ⟨row, k, hrow, hk, hbit, rfl⟩ := State.mem_spritePoints.mp hp
    exact ⟨row, k, hrow, hk, hbit, hP⟩
  · rintro ⟨row, k, hrow, hk, hbit, hP⟩
    exact ⟨_, State.mem_spritePoints.mpr ⟨row, k, hrow, hk, hbit, rfl⟩, hP⟩

theorem State.spritePoints_congr {s u : State} {x y : Reg} (n : Rows) (hc : u.cfg = s.cfg) (hm : u.mem = s.mem)
    (hi : u.i = s.i) (hx : u.reg x = s.reg x) (hy : u.reg y = s.reg y) :
    u.spritePoints x y n = s.spritePoints x y n := by
  simp only [State.spritePoints, hi, hx, hy, State.readByte_congr hc hm]

/-! ## A flag as VF holds it -/

theorem flagByte_eq_zero_or_one (f : Bool) : flagByte f = 0 ∨ flagByte f = 1 := by
  cases f with
  | false => exact .inl rfl
  | true => exact .inr rfl

theorem flagByte_eq_one_iff (f : Bool) : flagByte f = 1 ↔ f = true := by
  cases f with
  | false => exact iff_of_false (by decide) Bool.false_ne_true
  | true => exact iff_of_true rfl rfl

/-! ## What `exec` does with it -/

theorem exec_drw_of_le {x y : Reg} {n : Rows} {s : State} (h : n.val = 0 ∨ s.i.toNat + n.val ≤ memSize) :
    exec (.drw x y n) s = .next
      ({ s.advance with fb := (s.drawn x y n).fb }.setReg VF (flagByte (s.drawn x y n).hit)) := by
  simp only [exec, execDrw, State.load_eq, State.indexBase, h, if_true, Screen.blit_eq_plotAll, State.drawn,
    State.spritePoints]

theorem exec_drw_of_lt {x y : Reg} {n : Rows} {s : State} (hn : n.val ≠ 0) (h : memSize < s.i.toNat + n.val) :
    exec (.drw x y n) s = .next (s.raise .addressOutOfRange (encode (.drw x y n))) := by
  have out : ¬ (n.val = 0 ∨ s.i.toNat + n.val ≤ memSize) := by omega
  simp only [exec, execDrw, State.load_eq, State.indexBase, out, if_false]

/-- The frame of a state whose framebuffer, PC and VF alone were written. -/
theorem State.frame_draw {s t : State} {fb : Screen} {b : Byte}
    (ht : t = { s.advance with fb := fb }.setReg VF b) :
    keepsRegs [VF] s t ∧ t.pc = s.pc + 2 ∧ keepsIndex s t ∧ keepsStack s t ∧ keepsTimers s t ∧
      keepsMemory s t ∧ keepsRecord s t ∧ keepsEnv s t := by
  subst ht
  exact ⟨fun r hr => State.reg_setReg_of_ne _ b (List.ne_of_not_mem_cons hr), rfl, rfl, rfl, ⟨rfl, rfl⟩,
    State.keepsMemory_of_eq rfl rfl, rfl, ⟨rfl, rfl⟩⟩

/-! ## The obligations -/

/-- Settles O46: the sprite's positions are different, so plotting them toggles each of them once, and a pixel
is a collision when it was set in the old framebuffer. -/
theorem drawTogglesExactlyTheSpritePixels : Obligations.DrawTogglesExactlyTheSpritePixels := by
  refine fun x y n => ⟨decodeWord_drw x y n, fun s => ⟨fun hn hout => ?halt, fun hin => ?draw⟩⟩
  case halt => exact ⟨_, exec_drw_of_lt hn hout, s.haltsWith_raise _ _⟩
  case draw =>
    refine ⟨_, exec_drw_of_le hin, fun row k hrow hk hbit => ?toggled, fun r c hr => ?untouched, ?bit, ?flag,
      State.frame_draw rfl⟩
    case toggled =>
      exact (s.pixel_drawn x y n _ _).trans (if_pos (State.mem_spritePoints.mpr ⟨row, k, hrow, hk, hbit, rfl⟩))
    case untouched =>
      refine (s.pixel_drawn x y n r c).trans (if_neg fun hp => ?_)
      obtain ⟨row, k, hrow, hk, hbit, heq⟩ := State.mem_spritePoints.mp hp
      exact hr row k hrow hk hbit (Prod.mk.inj heq)
    case bit =>
      rw [State.reg_setReg_self]
      exact flagByte_eq_zero_or_one _
    case flag => rw [State.reg_setReg_self, flagByte_eq_one_iff, State.hit_drawn, State.exists_mem_spritePoints]

/-- Settles O29: the second draw plots the same positions, so every pixel is toggled twice or not at all, and a
position collides when its pixel was 0 before the first draw. -/
theorem drawingTwiceRestoresTheScreen : Obligations.DrawingTwiceRestoresTheScreen := by
  intro s t u x y n hin draw hc hm hi hfb hx hy
  rw [exec_drw_of_le hin] at draw
  cases draw
  have samePoints : u.spritePoints x y n = s.spritePoints x y n := State.spritePoints_congr n hc hm hi hx hy
  have firstDraw : ∀ r c, u.fb.pixel r c =
      if (r, c) ∈ s.spritePoints x y n then !s.fb.pixel r c else s.fb.pixel r c := fun r c =>
    (congrArg (Screen.pixel · r c) hfb).trans (s.pixel_drawn x y n r c)
  have toggled : ∀ p ∈ s.spritePoints x y n, (u.fb.pixel p.1 p.2 = true ↔ s.fb.pixel p.1 p.2 = false) := by
    intro p hp
    rw [firstDraw, if_pos hp, Bool.not_eq_true']
  refine ⟨_, exec_drw_of_le (hi ▸ hin), Screen.ext_pixel fun r c => ?restored, ?bit, ?flag⟩
  case restored =>
    refine (u.pixel_drawn x y n r c).trans ?_
    rw [samePoints, firstDraw]
    by_cases hp : (r, c) ∈ s.spritePoints x y n
    · rw [if_pos hp, if_pos hp, Bool.not_not]
    · rw [if_neg hp, if_neg hp]
  case bit =>
    rw [State.reg_setReg_self]
    exact (flagByte_eq_zero_or_one _).symm
  case flag =>
    rw [State.reg_setReg_self, flagByte_eq_one_iff, State.hit_drawn, samePoints]
    exact (exists_congr fun p => and_congr_right (toggled p)).trans State.exists_mem_spritePoints

end Sys2Proof.Machine
end

section
/-! The whole-machine rules (10_state.md): what each instruction can write, where it leaves PC, and which inputs
it reads. -/

namespace Sys2Proof.Machine

/-! ## Every instruction answers a next state -/

theorem exec_total (i : Instr) (s : State) : ∃ t, exec i s = .next t := by
  cases i with
  | ret =>
    cases hs : s.stack with
    | nil => exact ⟨_, exec_ret_of_empty hs⟩
    | cons target rest => exact ⟨_, exec_ret_of_cons hs⟩
  | call nnn =>
    by_cases h : s.stackFull = true
    · exact ⟨_, exec_call_of_full nnn h⟩
    · exact ⟨_, exec_call_of_not_full nnn h⟩
  | drw x y n =>
    by_cases h : n.val = 0 ∨ s.i.toNat + n.val ≤ memSize
    · exact ⟨_, exec_drw_of_le h⟩
    · obtain ⟨hn, hout⟩ := not_or.mp h
      exact ⟨_, exec_drw_of_lt hn (Nat.lt_of_not_le hout)⟩
  | ldB x =>
    rcases Nat.lt_or_ge memSize (s.i.toNat + 3) with h | h
    · exact ⟨_, exec_ldB_of_lt x h⟩
    · exact ⟨_, exec_ldB_of_le x h⟩
  | stRegs x =>
    rcases Nat.lt_or_ge memSize (s.i.toNat + (x.val + 1)) with h | h
    · exact ⟨_, exec_stRegs_of_lt x h⟩
    · exact ⟨_, exec_stRegs_of_le x h⟩
  | ldRegs x =>
    rcases Nat.lt_or_ge memSize (s.i.toNat + (x.val + 1)) with h | h
    · exact ⟨_, exec_ldRegs_of_lt x h⟩
    · exact ⟨_, exec_ldRegs_of_le x h⟩
  | _ => exact ⟨_, rfl⟩

/-! ## Who writes what: the writes column of 10_state.md section 10, for every piece of state but the registers
and PC -/

/-- What the instruction `i` may change between `s` and `t`. -/
structure WritesAtMost (i : Instr) (s t : State) : Prop where
  mem   : t.mem = s.mem ∨ (∃ x, i = .ldB x) ∨ ∃ x, i = .stRegs x
  fb    : t.fb = s.fb ∨ i = .cls ∨ ∃ x y n, i = .drw x y n
  stack : t.stack = s.stack ∨ i = .ret ∨ ∃ nnn, i = .call nnn
  index : t.i = s.i ∨ (∃ nnn, i = .ldI nnn) ∨ (∃ x, i = .addI x) ∨ ∃ x, i = .ldF x
  dt    : t.dt = s.dt ∨ ∃ x, i = .ldDtVx x
  st    : t.st = s.st ∨ ∃ x, i = .ldStVx x

theorem State.raise_writesAtMost (i : Instr) (s : State) (f : Fault) (w : Word) :
    WritesAtMost i s (s.raise f w) :=
  ⟨.inl rfl, .inl rfl, .inl rfl, .inl rfl, .inl rfl, .inl rfl⟩

theorem exec_writesAtMost {i : Instr} {s t : State} (h : exec i s = .next t) : WritesAtMost i s t := by
  cases i with
  | ret =>
    rcases execRet_cases h with ⟨-, rfl⟩ | ⟨_, _, -, rfl⟩
    · exact s.raise_writesAtMost _ _ _
    · constructor <;> simp
  | call nnn =>
    rcases execCall_cases h with ⟨-, rfl⟩ | ⟨-, rfl⟩
    · exact s.raise_writesAtMost _ _ _
    · constructor <;> simp
  | drw x y n =>
    rcases execDrw_cases h with rfl | ⟨-, _, -, rfl⟩
    · exact s.raise_writesAtMost _ _ _
    · constructor <;> simp
  | ldB x =>
    rcases execLdB_cases h with rfl | ⟨-, rfl⟩
    · exact s.raise_writesAtMost _ _ _
    · constructor <;> simp
  | stRegs x =>
    rcases execStRegs_cases h with rfl | ⟨-, rfl⟩
    · exact s.raise_writesAtMost _ _ _
    · constructor <;> simp
  | ldRegs x =>
    rcases execLdRegs_cases h with rfl | ⟨-, rfl⟩
    · exact s.raise_writesAtMost _ _ _
    · constructor <;> simp
  | ldVxK x =>
    rcases execLdVxK_cases h with ⟨-, rfl⟩ | ⟨_, -, rfl⟩
    · constructor <;> simp
    · constructor <;> simp
  | _ =>
    cases h
    constructor <;> simp

theorem exec_keepsEnv {i : Instr} {s t : State} (h : exec i s = .next t) : keepsEnv s t := by
  rcases exec_cases h with ⟨_, rfl⟩ | same
  · exact ⟨rfl, rfl⟩
  · exact ⟨same.cfg, same.env⟩

/-- Settles O19: a part of the state that differs afterwards is one that the instruction may change. -/
theorem onlyTheTablesWritersWrite : Obligations.OnlyTheTablesWritersWrite := by
  intro i s t h
  have writes := exec_writesAtMost h
  have env := exec_keepsEnv h
  refine ⟨fun changed => writes.mem.resolve_left fun same => changed (State.keepsMemory_of_eq env.1 same),
    fun changed => writes.fb.resolve_left fun same => changed fun r c => by rw [same],
    writes.stack.resolve_left, writes.index.resolve_left, writes.dt.resolve_left, writes.st.resolve_left, env⟩

/-! ## VF (10_state.md R10, R11) -/

theorem State.eq_VF_of_reg_setReg_ne {s : State} {x : Reg} {b : Byte}
    (h : (s.setReg x b).reg VF ≠ s.reg VF) : x = VF := by
  by_contra hx
  exact h (s.reg_setReg_of_ne b (Ne.symm hx))

theorem State.VF_writeFlagThenReg (s : State) (x : Reg) (o : AluOut) :
    x = VF ∨ (s.writeFlagThenReg x o).reg VF = 0 ∨ (s.writeFlagThenReg x o).reg VF = 1 := by
  by_cases hx : x = VF
  · exact .inl hx
  · rw [State.reg_writeFlagThenReg_VF s o hx]
    exact .inr (flagByte_eq_zero_or_one _)

theorem State.VF_writeRegThenFlag (s : State) (x : Reg) (o : AluOut) :
    (s.writeRegThenFlag x o).reg VF = 0 ∨ (s.writeRegThenFlag x o).reg VF = 1 := by
  rw [State.reg_writeRegThenFlag_VF]
  exact flagByte_eq_zero_or_one _

/-- Settles O20: a write of VF is a write of Vx with `x = F`, or the flag of the instruction. -/
theorem flagRegisterWritersAreTheListedOnes : Obligations.FlagRegisterWritersAreTheListedOnes := by
  intro i s t h changed
  cases i with
  | ldImm x _ | addImm x _ | rndImm x _ | ldReg x _ | orReg x _ | andReg x _ | xorReg x _ | ldVxDt x =>
    cases h
    obtain rfl := State.eq_VF_of_reg_setReg_ne changed
    simp
  | addReg x y | subReg x y | subnReg x y =>
    cases h
    rcases State.VF_writeFlagThenReg s.advance x _ with rfl | flag
    · simp
    · exact .inr ⟨by simp, flag⟩
  | shr x y | shl x y =>
    cases h
    exact .inr ⟨by simp, State.VF_writeRegThenFlag _ _ _⟩
  | drw x y n =>
    rcases execDrw_cases h with rfl | ⟨-, _, -, rfl⟩
    · exact absurd rfl changed
    · refine .inr ⟨by simp, ?_⟩
      rw [State.reg_setReg_self]
      exact flagByte_eq_zero_or_one _
  | addI x =>
    cases h
    rw [State.reg_setFlagIfIndexOver] at changed ⊢
    split at changed
    case isTrue reached => exact .inr ⟨by simp, .inr (if_pos reached)⟩
    case isFalse => exact absurd rfl changed
  | ldVxK x =>
    rcases execLdVxK_cases h with ⟨-, rfl⟩ | ⟨_, -, rfl⟩
    · exact absurd rfl changed
    · obtain rfl := State.eq_VF_of_reg_setReg_ne changed
      simp
  | ldRegs x =>
    rcases execLdRegs_cases h with rfl | ⟨-, rfl⟩
    · exact absurd rfl changed
    · rw [reg_ldRegs] at changed
      split at changed
      case isTrue hx =>
        obtain rfl : x = VF := Fin.ext (Nat.le_antisymm (Nat.le_of_lt_succ x.isLt) hx)
        simp
      case isFalse => exact absurd rfl changed
  | ret =>
    rcases execRet_cases h with ⟨-, rfl⟩ | ⟨_, _, -, rfl⟩
    · exact absurd rfl changed
    · exact absurd rfl changed
  | call nnn =>
    rcases execCall_cases h with ⟨-, rfl⟩ | ⟨-, rfl⟩
    · exact absurd rfl changed
    · exact absurd rfl changed
  | ldB x =>
    rcases execLdB_cases h with rfl | ⟨-, rfl⟩
    · exact absurd rfl changed
    · exact absurd (State.reg_congr (by simp) _) changed
  | stRegs x =>
    rcases execStRegs_cases h with rfl | ⟨-, rfl⟩
    · exact absurd rfl changed
    · exact absurd (State.reg_congr (by simp) _) changed
  | _ =>
    cases h
    exact absurd (State.reg_congr (by simp) _) changed

/-! ## PC (10_state.md section 2) -/

theorem State.pc_skipIf_advance (s : State) (c : Bool) :
    (s.advance.skipIf c).pc = s.pc + 2 ∨ (s.advance.skipIf c).pc = s.pc + 4 := by
  rw [State.skipIf_advance]
  cases c with
  | false => exact .inl rfl
  | true => exact .inr rfl

/-- Settles O21: a return pops PC, a jump and a call write it, a skip moves it by 2 or 4, a waiting Fx0A leaves it,
and every other instruction advances it. -/
theorem programCounterAfterEachInstruction : Obligations.ProgramCounterAfterEachInstruction := by
  intro i s t running h notHalted
  cases i with
  | ret =>
    rcases execRet_cases h with ⟨-, rfl⟩ | ⟨_, _, pushed, rfl⟩
    · cases notHalted
    · simp [pushed]
  | call nnn =>
    rcases execCall_cases h with ⟨-, rfl⟩ | ⟨-, rfl⟩
    · cases notHalted
    · simp [toNat_immAddr]
  | drw x y n =>
    rcases execDrw_cases h with rfl | ⟨-, _, -, rfl⟩
    · cases notHalted
    · simp
  | ldB x =>
    rcases execLdB_cases h with rfl | ⟨-, rfl⟩
    · cases notHalted
    · simp
  | stRegs x =>
    rcases execStRegs_cases h with rfl | ⟨-, rfl⟩
    · cases notHalted
    · simp
  | ldRegs x =>
    rcases execLdRegs_cases h with rfl | ⟨-, rfl⟩
    · cases notHalted
    · simp
  | ldVxK x =>
    rcases execLdVxK_cases h with ⟨noKey, rfl⟩ | ⟨_, -, rfl⟩
    · simp [noKey]
    · simp
  | jp nnn =>
    cases h
    simp [toNat_immAddr]
  | jpV0 nnn =>
    cases h
    simp [State.toNat_immAddrPlusV0]
  | seImm _ _ | sneImm _ _ | seReg _ _ | sneReg _ _ | skp _ | sknp _ =>
    cases h
    rcases s.pc_skipIf_advance _ with next | skipped
    · exact .inl next
    · exact .inr (.inr (.inr (.inr (.inl ⟨skipped, by simp⟩))))
  | _ =>
    cases h
    simp

/-! ## What no instruction reads: a change of the timers and of the model's own fields that the instruction
neither reads nor overwrites may be made before it or after it -/

/-- A change of the timers and of the model's own fields. -/
def State.patch (p q : Byte → Byte) (g : Env → Env) (s : State) : State :=
  { s with dt := p s.dt, st := q s.st, env := g s.env }

/-- The values that the instruction reads, or writes into a timer, are ones that the change keeps. -/
structure KeepsInputsOf (i : Instr) (p q : Byte → Byte) (g : Env → Env) (s : State) : Prop where
  readsDt  : (∃ x, i = .ldVxDt x) → p s.dt = s.dt
  writesDt : ∀ x, i = .ldDtVx x → p (s.reg x) = s.reg x
  writesSt : ∀ x, i = .ldStVx x → q (s.reg x) = s.reg x
  key      : (∃ x, i = .skp x) ∨ (∃ x, i = .sknp x) ∨ (∃ x, i = .ldVxK x) → (g s.env).key = s.env.key
  rnd      : (∃ x nn, i = .rndImm x nn) → (g s.env).rnd = s.env.rnd

section

variable (p q : Byte → Byte) (g : Env → Env)

theorem State.storeBytes_patch (s : State) (base : Nat) (xs : List Byte) :
    (s.patch p q g).storeBytes base xs = (s.storeBytes base xs).patch p q g := by
  induction xs generalizing s base with
  | nil => rfl
  | cons x xs ih => exact ih (s.writeByte base x) (base + 1)

theorem State.setRegsFrom_patch (s : State) (k : Nat) (bs : List Byte) :
    (s.patch p q g).setRegsFrom k bs = (s.setRegsFrom k bs).patch p q g := by
  induction bs generalizing s k with
  | nil => rfl
  | cons b bs ih =>
    rw [State.setRegsFrom, State.setRegsFrom, ← ih]
    split <;> rfl

theorem State.skipIf_advance_patch (s : State) (c : Bool) :
    (s.patch p q g).advance.skipIf c = (s.advance.skipIf c).patch p q g := by
  cases c <;> rfl

theorem State.setFlagIfIndexOver_patch (s : State) (k : Nat) :
    (s.patch p q g).setFlagIfIndexOver k = (s.setFlagIfIndexOver k).patch p q g := by
  unfold State.setFlagIfIndexOver
  split <;> rfl

theorem State.keyMatches_congr {s u : State} {x : Reg} (hk : u.env.key = s.env.key) (hx : u.reg x = s.reg x) :
    u.keyMatches x = s.keyMatches x := by
  rw [State.keyMatches, State.keyMatches, hk, hx]

variable {p q g} in
theorem exec_patch {i : Instr} {s t : State} (keeps : KeepsInputsOf i p q g s) (h : exec i s = .next t) :
    exec i (s.patch p q g) = .next (t.patch p q g) := by
  cases i with
  | ret =>
    cases hs : s.stack with
    | nil =>
      rw [exec_ret_of_empty hs] at h
      cases h
      exact exec_ret_of_empty (s := s.patch p q g) hs
    | cons target rest =>
      rw [exec_ret_of_cons hs] at h
      cases h
      exact exec_ret_of_cons (s := s.patch p q g) hs
  | call nnn =>
    by_cases hs : s.stackFull = true
    · rw [exec_call_of_full nnn hs] at h
      cases h
      exact exec_call_of_full (s := s.patch p q g) nnn hs
    · rw [exec_call_of_not_full nnn hs] at h
      cases h
      exact exec_call_of_not_full (s := s.patch p q g) nnn hs
  | drw x y n =>
    by_cases hs : n.val = 0 ∨ s.i.toNat + n.val ≤ memSize
    · rw [exec_drw_of_le hs] at h
      cases h
      exact exec_drw_of_le (s := s.patch p q g) hs
    · obtain ⟨hn, hout⟩ := not_or.mp hs
      rw [exec_drw_of_lt hn (Nat.lt_of_not_le hout)] at h
      cases h
      exact exec_drw_of_lt (s := s.patch p q g) hn (Nat.lt_of_not_le hout)
  | ldB x =>
    rcases Nat.lt_or_ge memSize (s.i.toNat + 3) with hs | hs
    · rw [exec_ldB_of_lt x hs] at h
      cases h
      exact exec_ldB_of_lt (s := s.patch p q g) x hs
    · rw [exec_ldB_of_le x hs] at h
      cases h
      rw [← State.storeBytes_patch]
      exact exec_ldB_of_le (s := s.patch p q g) x hs
  | stRegs x =>
    rcases Nat.lt_or_ge memSize (s.i.toNat + (x.val + 1)) with hs | hs
    · rw [exec_stRegs_of_lt x hs] at h
      cases h
      exact exec_stRegs_of_lt (s := s.patch p q g) x hs
    · rw [exec_stRegs_of_le x hs] at h
      cases h
      rw [← State.storeBytes_patch]
      exact exec_stRegs_of_le (s := s.patch p q g) x hs
  | ldRegs x =>
    rcases Nat.lt_or_ge memSize (s.i.toNat + (x.val + 1)) with hs | hs
    · rw [exec_ldRegs_of_lt x hs] at h
      cases h
      exact exec_ldRegs_of_lt (s := s.patch p q g) x hs
    · rw [exec_ldRegs_of_le x hs] at h
      cases h
      rw [← State.setRegsFrom_patch]
      exact exec_ldRegs_of_le (s := s.patch p q g) x hs
  | seImm _ _ | sneImm _ _ | seReg _ _ | sneReg _ _ =>
    cases h
    exact congrArg Host.Outcome.next (s.skipIf_advance_patch p q g _)
  | skp x =>
    have sameKey : (s.patch p q g).keyMatches x = s.keyMatches x :=
      State.keyMatches_congr (keeps.key (.inl ⟨x, rfl⟩)) rfl
    cases h
    rw [exec_skp, sameKey]
    exact congrArg Host.Outcome.next (s.skipIf_advance_patch p q g _)
  | sknp x =>
    have sameKey : (s.patch p q g).keyMatches x = s.keyMatches x :=
      State.keyMatches_congr (keeps.key (.inr (.inl ⟨x, rfl⟩))) rfl
    cases h
    rw [exec_sknp, sameKey]
    exact congrArg Host.Outcome.next (s.skipIf_advance_patch p q g _)
  | addI x =>
    cases h
    exact congrArg Host.Outcome.next (State.setFlagIfIndexOver_patch p q g (s.advance.setIndex _) _)
  | ldVxK x =>
    have sameKey : (s.patch p q g).env.key = s.env.key := keeps.key (.inr (.inr ⟨x, rfl⟩))
    cases hk : s.env.key with
    | none =>
      rw [exec_ldVxK_of_no_key x hk] at h
      cases h
      exact exec_ldVxK_of_no_key x (sameKey.trans hk)
    | some key =>
      rw [exec_ldVxK_of_key x hk] at h
      cases h
      exact exec_ldVxK_of_key x (sameKey.trans hk)
  | rndImm x nn =>
    have sameByte : (s.patch p q g).env.rnd = s.env.rnd := keeps.rnd ⟨x, nn, rfl⟩
    cases h
    rw [exec_rndImm, sameByte]
    rfl
  | ldVxDt x =>
    have sameDt : (s.patch p q g).dt = s.dt := keeps.readsDt ⟨x, rfl⟩
    cases h
    rw [exec_ldVxDt, sameDt]
    rfl
  | ldDtVx x =>
    cases h
    exact congrArg (fun b => Host.Outcome.next { (s.patch p q g).advance with dt := b }) (keeps.writesDt x rfl).symm
  | ldStVx x =>
    cases h
    exact congrArg (fun b => Host.Outcome.next { (s.patch p q g).advance with st := b }) (keeps.writesSt x rfl).symm
  | _ =>
    cases h
    rfl

end

/-! ## The obligations about what is not read -/

/-- Settles O14: a TICK is a change of the timers and the tone counter, which those instructions keep. -/
theorem tickCommutesWithOtherInstructions : Obligations.TickCommutesWithOtherInstructions := by
  intro i s t noRead noDt noSt h
  have keeps : KeepsInputsOf i countDown countDown
      (fun _ => { s.env with tones := s.env.tones + toneCount s.st }) s :=
    ⟨fun ⟨x, e⟩ => absurd e (noRead x), fun x e => absurd e (noDt x), fun x e => absurd e (noSt x), fun _ => rfl,
      fun _ => rfl⟩
  have sameSt : t.st = s.st := (exec_writesAtMost h).st.resolve_right fun ⟨x, e⟩ => noSt x e
  have sameEnv : t.env = s.env := (exec_keepsEnv h).2
  have tick_of_t : t.tick = t.patch countDown countDown
      (fun _ => { s.env with tones := s.env.tones + toneCount s.st }) := by
    rw [State.tick, State.patch, sameSt, sameEnv]
  rw [tick_of_t]
  exact exec_patch keeps h

/-- Settles O22: another value of ST is a change that every instruction but Fx18 keeps, and Fx18 overwrites. -/
theorem noInstructionReadsSoundTimer : Obligations.NoInstructionReadsSoundTimer := by
  refine fun i s t v h => ⟨?overwrites, fun noSt => ?keeps⟩
  case overwrites =>
    rintro ⟨x, rfl⟩
    cases h
    rfl
  case keeps =>
    have keeps : KeepsInputsOf i id (fun _ => v) id s :=
      ⟨fun _ => rfl, fun _ _ => rfl, fun x e => absurd e (noSt x), fun _ => rfl, fun _ => rfl⟩
    exact exec_patch keeps h

/-- Settles O23: another key, or another random byte, is a change that every other instruction keeps. -/
theorem inputsReachOnlyTheirInstructions : Obligations.InputsReachOnlyTheirInstructions := by
  refine fun i s t h => ⟨fun key noSkp noSknp noWait => ?key, fun rnd noRnd => ?rnd⟩
  case key =>
    have keeps : KeepsInputsOf i id id (fun e => { e with key := key }) s := by
      refine ⟨fun _ => rfl, fun _ _ => rfl, fun _ _ => rfl, ?_, fun _ => rfl⟩
      rintro (⟨x, e⟩ | ⟨x, e⟩ | ⟨x, e⟩)
      · exact absurd e (noSkp x)
      · exact absurd e (noSknp x)
      · exact absurd e (noWait x)
    exact exec_patch keeps h
  case rnd =>
    have keeps : KeepsInputsOf i id id (fun e => { e with rnd := rnd }) s :=
      ⟨fun _ => rfl, fun _ _ => rfl, fun _ _ => rfl, fun _ => rfl, fun ⟨x, nn, e⟩ => absurd e (noRnd x nn)⟩
    exact exec_patch keeps h

end Sys2Proof.Machine
end

section
/-! The step cycle (30_encoding.md section 2) and what a step can do: the faults are precise, a halted block
leaves only by RESET, a self-jump changes nothing (60_exceptions.md, 70_reset_and_hazards.md). -/

namespace Sys2Proof

theorem Config.imageFits_iff (c : Config) (program : List Byte) :
    c.imageFits program = true ↔ c.loadBase + program.length ≤ 4096 := decide_eq_true_iff

namespace Machine

/-! ## The schedule -/

/-- Taking the next event from the schedule changes the model's own fields only. -/
theorem State.takeUpcoming_eq (s : State) : s.takeUpcoming = { s with env := s.takeUpcoming.env } := by
  unfold State.takeUpcoming
  repeat' split
  all_goals rfl

theorem State.tones_takeUpcoming (s : State) : s.takeUpcoming.env.tones = s.env.tones := by
  unfold State.takeUpcoming
  repeat' split
  all_goals rfl

theorem events_of_upcoming_reset {s : State} {program : List Byte} (h : s.upcoming = .reset program) :
    ∃ es, s.env.events = .reset program :: es := by
  cases he : s.env.events with
  | nil => exact absurd h (upcoming_ne_reset he program)
  | cons e es =>
    rw [upcoming_of_cons he] at h
    exact ⟨es, by rw [h]⟩

/-! ## The step of a running block -/

section

variable {s : State} {key : Option Key} {rnd : Byte}

theorem step_of_instr {w : Word} {i : Instr} (hu : s.upcoming = .step key rnd) (running : s.halted = false)
    (hf : s.fetch = some w) (hd : decodeWord w = .ok i) : step s = exec i (s.takeUpcoming.sample key rnd) := by
  rw [step_of_step_running hu running, interpret_of_instr ((fetch_sampled s key rnd).trans hf) hd]

theorem step_of_fetch_none (hu : s.upcoming = .step key rnd) (running : s.halted = false) (hf : s.fetch = none) :
    step s = .next ((s.takeUpcoming.sample key rnd).raise .addressOutOfRange 0) := by
  rw [step_of_step_running hu running, interpret_of_fetch_none ((fetch_sampled s key rnd).trans hf)]

theorem step_of_invalid {w : Word} {e : Reject} (hu : s.upcoming = .step key rnd) (running : s.halted = false)
    (hf : s.fetch = some w) (hd : decodeWord w = .error e) :
    step s = .next ((s.takeUpcoming.sample key rnd).raise .invalidInstruction w) := by
  rw [step_of_step_running hu running, interpret_of_invalid ((fetch_sampled s key rnd).trans hf) hd]

end

theorem decodeWord_of_decode_pair {hi lo : Byte} {i : Instr} (h : decode [hi, lo] = .ok (i, [])) :
    decodeWord (hi ++ lo) = .ok i := by
  rw [decode] at h
  cases hd : decodeWord (hi ++ lo) with
  | ok j =>
    rw [hd] at h
    cases h
    rfl
  | error e =>
    rw [hd] at h
    cases h

/-- Settles O6: the fetch is in range and its word decodes, so the step is the instruction's, on the state with
the STEP taken and its inputs sampled. -/
theorem stepRunsDecodedInstruction : Obligations.StepRunsDecodedInstruction := by
  intro s i running hp hd
  have word := decodeWord_of_decode_pair hd
  refine ⟨fun key rnd es he => ?listed, fun k he hk => ?free⟩
  case listed =>
    rw [step_of_instr (upcoming_of_cons he) running (State.fetch_of_le hp) word, takeUpcoming_of_cons he]
    rfl
  case free =>
    rw [step_of_instr (upcoming_of_gap_succ he hk) running (State.fetch_of_le hp) word,
      takeUpcoming_of_gap_succ he hk]
    rfl

/-- Settles O7: the fetch answers no word, which is the step's first fatal condition. -/
theorem fetchOutsideMemoryHalts : Obligations.FetchOutsideMemoryHalts :=
  fun _ _ _ running hu hout =>
    ⟨_, step_of_fetch_none hu running (State.fetch_of_lt hout), State.haltsWith_raise _ _ _⟩

/-- Settles O8: the decode refuses the fetched word, which is the step's second fatal condition. -/
theorem invalidInstructionHalts : Obligations.InvalidInstructionHalts :=
  fun _ _ _ _ running hu _ hf hd => ⟨_, step_of_invalid hu running hf hd, State.haltsWith_raise _ _ _⟩

/-! ## What a step can do -/

/-- The inversion lemma of `step`, by the event: a TICK, a STEP of a halted block, a STEP of a running one, or a
RESET whose image fits. -/
theorem step_cases {s t : State} (h : step s = .next t) :
    (s.upcoming = .tick ∧ t = s.takeUpcoming.tick) ∨
    (∃ key rnd, s.upcoming = .step key rnd ∧ s.halted = true ∧ t = s.takeUpcoming) ∨
    (∃ key rnd, s.upcoming = .step key rnd ∧ s.halted = false ∧
      interpret (s.takeUpcoming.sample key rnd) = .next t) ∨
    (∃ program es, s.env.events = .reset program :: es ∧ s.cfg.imageFits program = true ∧
      t = (s.withEvents es).launch program) := by
  cases hu : s.upcoming with
  | tick =>
    rw [step_of_tick hu] at h
    cases h
    exact .inl ⟨rfl, rfl⟩
  | step key rnd =>
    cases hh : s.halted with
    | true =>
      rw [step_of_step_halted hu hh] at h
      cases h
      exact .inr (.inl ⟨key, rnd, rfl, rfl, rfl⟩)
    | false =>
      rw [step_of_step_running hu hh] at h
      exact .inr (.inr (.inl ⟨key, rnd, rfl, rfl, h⟩))
  | reset program =>
    obtain ⟨es, he⟩ := events_of_upcoming_reset hu
    rw [step_of_reset he] at h
    split at h
    case isTrue fits =>
      cases h
      exact .inr (.inr (.inr ⟨program, es, he, fits, rfl⟩))
    case isFalse => cases h

/-- The step cycle raises a condition, or it leaves the halt flag and the fault record alone. -/
theorem interpret_raises_or_keeps {s t : State} (h : interpret s = .next t) :
    (∃ f w, t = s.raise f w) ∨ s.SameControl t := by
  rcases interpret_cases s with ⟨-, e⟩ | ⟨w, -, e⟩ | ⟨w, i, -, -, e⟩ <;> rw [e] at h
  · cases h
    exact .inl ⟨_, _, rfl⟩
  · cases h
    exact .inl ⟨_, _, rfl⟩
  · rcases exec_cases h with ⟨f, rfl⟩ | same
    · exact .inl ⟨f, _, rfl⟩
    · exact .inr same

theorem Fault.code_bounds (f : Fault) : 1 ≤ f.code.toNat ∧ f.code.toNat ≤ 4 := by
  cases f <;> decide

theorem State.halted_launch (s : State) (program : List Byte) : (s.launch program).halted = false := by
  simp [State.launch]

/-- Settles O9: of what a step can do only a raised condition halts a running block, and it changes nothing but
HALTED and the record. -/
theorem faultsArePrecise : Obligations.FaultsArePrecise := by
  intro s t running h halted
  rcases step_cases h with ⟨-, rfl⟩ | ⟨_, _, -, hh, -⟩ | ⟨key, rnd, -, -, hi⟩ | ⟨program, es, -, -, rfl⟩
  · rw [State.tick_halted, State.takeUpcoming_halted, running] at halted
    cases halted
  · rw [running] at hh
    cases hh
  · rcases interpret_raises_or_keeps hi with ⟨f, w, rfl⟩ | same
    · obtain ⟨lower, upper⟩ := f.code_bounds
      refine ⟨?_, lower, upper, s.tones_takeUpcoming⟩
      rw [State.takeUpcoming_eq]
      rfl
    · rw [same.halted, State.sample_halted, State.takeUpcoming_halted, running] at halted
      cases halted
  · rw [State.halted_launch] at halted
    cases halted

/-- Settles O10: a halted block does not run the step cycle, so a STEP takes its event only and a TICK counts
the timers down. -/
theorem haltedBlockLeavesOnlyByReset : Obligations.HaltedBlockLeavesOnlyByReset := by
  intro s t halted h
  rcases step_cases h with ⟨hu, rfl⟩ | ⟨_, _, -, -, rfl⟩ | ⟨_, _, -, running, -⟩ | ⟨program, es, he, -, -⟩
  · refine .inr ⟨?_, fun noTick => absurd hu noTick⟩
    rw [State.takeUpcoming_eq]
    rfl
  · refine .inr ⟨?_, fun _ => ⟨State.takeUpcoming_dt s, State.takeUpcoming_st s, s.tones_takeUpcoming⟩⟩
    rw [State.takeUpcoming_eq]
  · rw [halted] at running
    cases running
  · exact .inl ⟨program, es, he⟩

/-! ## Which steps are refused -/

theorem interpret_total (s : State) : ∃ t, interpret s = .next t := by
  rcases interpret_cases s with ⟨-, e⟩ | ⟨w, -, e⟩ | ⟨w, i, -, -, e⟩ <;> rw [e]
  · exact ⟨_, rfl⟩
  · exact ⟨_, rfl⟩
  · exact exec_total i s

theorem step_total {s : State}
    (fits : ∀ program es, s.env.events = .reset program :: es → s.cfg.loadBase + program.length ≤ 4096) :
    ∃ t, step s = .next t := by
  cases hu : s.upcoming with
  | tick => exact ⟨_, step_of_tick hu⟩
  | step key rnd =>
    cases hh : s.halted with
    | true => exact ⟨_, step_of_step_halted hu hh⟩
    | false =>
      rw [step_of_step_running hu hh]
      exact interpret_total _
  | reset program =>
    obtain ⟨es, he⟩ := events_of_upcoming_reset hu
    rw [step_of_reset he, if_pos ((s.cfg.imageFits_iff program).mpr (fits program es he))]
    exact ⟨_, rfl⟩

/-- Settles O11: the step is total event by event, but for the RESET whose bound check fails. -/
theorem onlyALaunchThatDoesNotFitIsRefused : Obligations.OnlyALaunchThatDoesNotFitIsRefused := by
  refine ⟨exec_total, fun s fits => step_total fits, fun s program es he long => ?_⟩
  rw [step_of_reset he, if_neg fun fits => absurd ((s.cfg.imageFits_iff program).mp fits) (Nat.not_le_of_lt long)]

/-! ## The end of a run (70_reset_and_hazards.md R194) -/

/-- A jump to the low 12 bits of an address inside memory is a jump to that address. -/
theorem immAddr_setWidth_of_lt {w : Word} (h : w.toNat < 4096) : immAddr (w.setWidth 12) = w := by
  apply BitVec.eq_of_toNat_eq
  rw [toNat_immAddr, BitVec.toNat_setWidth]
  exact Nat.mod_eq_of_lt h

theorem State.atSelfJump_iff (s : State) :
    s.atSelfJump = true ↔ s.halted = false ∧ s.fetch = some (encode (.jp (s.pc.setWidth 12))) := by
  rw [State.atSelfJump, Bool.and_eq_true, beq_iff_eq, State.safe, Bool.not_eq_true']

theorem State.pc_add_two_le_of_fetch {s : State} {w : Word} (h : s.fetch = some w) : s.pc.toNat + 2 ≤ 4096 := by
  by_contra hout
  rw [State.fetch_of_lt (by omega)] at h
  cases h

/-- Settles O24: the step runs the jump, and the jump writes into PC the address that PC already holds. -/
theorem selfJumpChangesNothing : Obligations.SelfJumpChangesNothing := by
  intro s key rnd hs hu
  obtain ⟨running, hf⟩ := s.atSelfJump_iff.mp hs
  have hp := State.pc_add_two_le_of_fetch hf
  have target : immAddr (s.pc.setWidth 12) = s.pc := immAddr_setWidth_of_lt (by omega)
  have stepped : step s = .next ((s.takeUpcoming.sample key rnd).setPc s.pc) := by
    rw [step_of_instr hu running hf (decodeWord_encode _), exec_jp, target]
  refine ⟨_, stepped, ?unchanged, ?again⟩
  case unchanged =>
    rw [State.takeUpcoming_eq]
    rfl
  case again =>
    refine (State.atSelfJump_iff _).mpr ⟨?_, ?_⟩
    · simp [running]
    · rw [fetch_congr (s := s) (by simp) (by simp) (by simp), hf, State.setPc_pc]

end Machine
end Sys2Proof
end

section
/-! The timer clock (60_exceptions.md section 4): a TICK, listed ticks in a row, and its progress in endless runs. -/

namespace Sys2Proof.Machine

/-! ## One TICK (R172, R175) -/

theorem add_toneCount (k : Nat) (st : Byte) : k + toneCount st = if st = 0 then k else k + 1 := by
  have zero_iff : st = 0 ↔ ¬ 0 < st.toNat := by
    rw [← BitVec.toNat_inj, Nat.pos_iff_ne_zero, not_not]
    rfl
  unfold toneCount
  split <;> simp_all

/-- Settles O12: the step takes the TICK from the schedule and counts both timers down. -/
theorem tickCountsDownBothTimers : Obligations.TickCountsDownBothTimers := by
  refine fun s => ⟨fun es he => ?listed, fun he hk => ?free⟩
  case listed =>
    refine ⟨(s.withEvents es).tick, ?_, toNat_countDown _, toNat_countDown _, ?_, rfl⟩
    · rw [step_of_tick (upcoming_of_cons he), takeUpcoming_of_cons he]
    · rw [← add_toneCount]
      rfl
  case free =>
    refine ⟨s.takeFreeTick.tick, ?_, toNat_countDown _, toNat_countDown _, ?_, rfl⟩
    · rw [step_of_tick (upcoming_of_gap_zero he hk), takeUpcoming_of_gap_zero he hk]
    · rw [← add_toneCount]
      rfl

/-! ## Listed ticks in a row -/

theorem run_succ_of_step (M : Host.Core) (k : Nat) {s t : M.State} (h : M.step s = .next t) :
    M.run (k + 1) s = M.run k t := by
  rw [Host.Core.run, h]

theorem run_succ_of_tick {s : State} {es : List Event} (k : Nat) (h : s.env.events = .tick :: es) :
    Host.Core.run Sys2Proof.core (k + 1) s = Host.Core.run Sys2Proof.core k (s.withEvents es).tick := by
  have stepped : step s = .next (s.withEvents es).tick := by
    rw [step_of_tick (upcoming_of_cons h), takeUpcoming_of_cons h]
  exact run_succ_of_step Sys2Proof.core k stepped

/-- Settles O13, by induction on the number of ticks. -/
theorem timersReachZeroAfterTheirCount : Obligations.TimersReachZeroAfterTheirCount := by
  intro k
  induction k with
  | zero =>
    intro s es he
    refine ⟨s, rfl, rfl, rfl, ?_, rfl⟩
    rw [Nat.zero_min, Nat.add_zero, ← show s.env.events = es from he]
  | succ k ih =>
    intro s es he
    rw [List.replicate_succ, List.cons_append] at he
    obtain ⟨t, hrun, hdt, hst, henv, ht⟩ := ih (s.withEvents (List.replicate k .tick ++ es)).tick es rfl
    refine ⟨t, (run_succ_of_tick k he).trans hrun, ?dt, ?st, ?env, ht⟩
    case dt =>
      rw [hdt, State.tick_dt, toNat_countDown, State.withEvents_dt, Nat.sub_sub, Nat.add_comm]
    case st =>
      rw [hst, State.tick_st, toNat_countDown, State.withEvents_st, Nat.sub_sub, Nat.add_comm]
    case env =>
      have tones : s.env.tones + toneCount s.st + min k (countDown s.st).toNat =
          s.env.tones + min (k + 1) s.st.toNat := by
        rw [toneCount_eq, toNat_countDown]
        omega
      rw [henv, ← tones]
      rfl

/-! ## Weak fairness (R174, decision D29) -/

/-- The list of events ends. -/
theorem EndlessRun.exists_events_nil {r : Nat → State} (hr : EndlessRun r) (n : Nat) :
    ∃ m, n ≤ m ∧ (r m).env.events = [] := by
  induction hl : (r n).env.events generalizing n with
  | nil => exact ⟨n, Nat.le_refl n, hl⟩
  | cons e es ih =>
    have rest : (r (n + 1)).env.events = es := by rw [step_events (hr n), hl, List.tail_cons]
    obtain ⟨m, hm, he⟩ := ih (n + 1) rest
    exact ⟨m, Nat.le_of_succ_le hm, he⟩

/-- With no event listed, the gap before the TICK ends. -/
theorem EndlessRun.exists_tick_of_events_nil {r : Nat → State} (hr : EndlessRun r) (n : Nat)
    (he : (r n).env.events = []) : ∃ m, n ≤ m ∧ (r m).upcoming = .tick := by
  induction hk : (r n).env.stepsToTick generalizing n with
  | zero => exact ⟨n, Nat.le_refl n, upcoming_of_gap_zero he hk⟩
  | succ k ih =>
    by_cases hu : (r n).upcoming = .tick
    · exact ⟨n, Nat.le_refl n, hu⟩
    · have nearer := step_nears_tick (hr n) he hu
      obtain ⟨m, hm, htick⟩ := ih (n + 1) (by rw [step_events (hr n), he, List.tail_nil]) (by omega)
      exact ⟨m, Nat.le_of_succ_le hm, htick⟩

theorem EndlessRun.weaklyFair {r : Nat → State} (hr : EndlessRun r) : WeaklyFair r := by
  intro n
  obtain ⟨m, hm, he⟩ := hr.exists_events_nil n
  obtain ⟨m', hm', htick⟩ := hr.exists_tick_of_events_nil m he
  exact ⟨m', Nat.le_trans hm hm', htick⟩

/-- The state after one step, if there is one. -/
def State.successor (s : State) : State :=
  match step s with
  | .next t => t
  | .fault _ => s
  | .refused _ => s

/-- With no event listed, the schedule never comes to a RESET, and so a step is never refused. -/
theorem step_successor_of_events_nil {s : State} (he : s.env.events = []) :
    step s = .next s.successor ∧ s.successor.env.events = [] := by
  obtain ⟨t, ht⟩ := step_total fun program es hreset => absurd (he.symm.trans hreset) nofun
  have successor_eq : s.successor = t := by rw [State.successor, ht]
  rw [successor_eq]
  exact ⟨ht, by rw [step_events ht, he, List.tail_nil]⟩

theorem events_iterate_successor {s : State} (he : s.env.events = []) (n : Nat) :
    (State.successor^[n] s).env.events = [] := by
  induction n with
  | zero => exact he
  | succ n ih =>
    rw [Function.iterate_succ_apply']
    exact (step_successor_of_events_nil ih).2

theorem endlessRun_iterate_successor {s : State} (he : s.env.events = []) :
    EndlessRun fun n => State.successor^[n] s := by
  intro n
  show step (State.successor^[n] s) = .next (State.successor^[n + 1] s)
  rw [Function.iterate_succ_apply']
  exact (step_successor_of_events_nil (events_iterate_successor he n)).1

/-- Settles O53: the list of events and then the gap before the next TICK get shorter with every step, and with no
event listed every state has a successor of the same kind. -/
theorem everyEndlessRunKeepsTicking : Obligations.EveryEndlessRunKeepsTicking :=
  ⟨fun _ hr => hr.weaklyFair, fun _ he => ⟨_, rfl, endlessRun_iterate_successor he⟩⟩

/-! ## A timer that is left alone -/

/-- A timer `f` that only ticks change, from point `n` of a run on. -/
structure TickedOnly (f : State → Byte) (r : Nat → State) (n : Nat) : Prop where
  ticked : ∀ m, n ≤ m → (r m).upcoming = .tick → f (r (m + 1)) = countDown (f (r m))
  kept   : ∀ m, n ≤ m → (r m).upcoming ≠ .tick → f (r (m + 1)) = f (r m)

theorem TickedOnly.le_of_le {f : State → Byte} {r : Nat → State} {n : Nat} (h : TickedOnly f r n) {m : Nat}
    (hm : n ≤ m) : (f (r m)).toNat ≤ (f (r n)).toNat := by
  induction m, hm using Nat.le_induction with
  | base => exact Nat.le_refl _
  | succ m hm ih =>
    by_cases hu : (r m).upcoming = .tick
    · rw [h.ticked m hm hu, toNat_countDown]
      omega
    · rw [h.kept m hm hu]
      exact ih

/-- Each TICK of a fair run brings the timer one nearer to zero. -/
theorem TickedOnly.exists_zero {f : State → Byte} {r : Nat → State} (fair : WeaklyFair r) (v n : Nat)
    (h : TickedOnly f r n) (hv : (f (r n)).toNat ≤ v) : ∃ m, n ≤ m ∧ f (r m) = 0 := by
  induction v generalizing n with
  | zero => exact ⟨n, Nat.le_refl n, BitVec.eq_of_toNat_eq (Nat.le_zero.mp hv)⟩
  | succ v ih =>
    obtain ⟨m, hm, hu⟩ := fair n
    have later : TickedOnly f r (m + 1) :=
      ⟨fun k hk => h.ticked k (by omega), fun k hk => h.kept k (by omega)⟩
    have lower : (f (r (m + 1))).toNat ≤ v := by
      have := h.le_of_le hm
      rw [h.ticked m hm hu, toNat_countDown]
      omega
    obtain ⟨k, hk, hzero⟩ := ih (m + 1) later lower
    exact ⟨k, by omega, hzero⟩

theorem timers_of_tick {s t : State} (h : step s = .next t) (hu : s.upcoming = .tick) :
    t.dt = countDown s.dt ∧ t.st = countDown s.st := by
  rw [step_of_tick hu] at h
  cases h
  simp

/-- Settles O54: the run is fair, and a fair run ticks a timer that is left alone down to zero. -/
theorem timersLeftAloneReachZero : Obligations.TimersLeftAloneReachZero := by
  refine fun r n hr => ⟨fun kept => ?dt, fun kept => ?st⟩
  case dt =>
    exact TickedOnly.exists_zero (f := State.dt) hr.weaklyFair _ n
      ⟨fun m _ hu => (timers_of_tick (hr m) hu).1, kept⟩ (Nat.le_refl _)
  case st =>
    exact TickedOnly.exists_zero (f := State.st) hr.weaklyFair _ n
      ⟨fun m _ hu => (timers_of_tick (hr m) hu).2, kept⟩ (Nat.le_refl _)

end Sys2Proof.Machine
end

section
/-! RESET (70_reset_and_hazards.md section 1) and the invariant: it holds after reset and every step keeps it. -/

namespace Sys2Proof

/-! ## Legal parameters as bounds (00_scope.md R4) -/

theorem Config.loadBase_add_two_le {c : Config} (h : c.wellFormed = true) : c.loadBase + 2 ≤ 4096 := by
  obtain ⟨-, hload⟩ : c.fontFits = true ∧ c.loadFits = true := Bool.and_eq_true_iff.mp h
  exact of_decide_eq_true hload

theorem Config.toNat_loadBase {c : Config} (h : c.wellFormed = true) :
    (BitVec.ofNat 16 c.loadBase).toNat = c.loadBase := by
  have hload := c.loadBase_add_two_le h
  rw [BitVec.toNat_ofNat]
  exact Nat.mod_eq_of_lt (by omega)

namespace Machine

/-! ## What an address reads as before anything is written to it (20_memory.md R36) -/

theorem Memory.blank_font (c : Config) (j : Fin 80) : Memory.blank c (c.fontBase + j.val) = c.fontData.get j := by
  have hin : c.fontBase ≤ c.fontBase + j.val ∧ c.fontBase + j.val < c.fontBase + 80 := by omega
  simp only [Memory.blank, dif_pos hin, Nat.add_sub_cancel_left, Vector.get_eq_getElem]

theorem Memory.blank_outside_font {c : Config} {a : Nat} (h : a < c.fontBase ∨ c.fontBase + 80 ≤ a) :
    Memory.blank c a = (Memory.find c.memFill a).getD 0 := by
  rw [Memory.blank, dif_neg (by omega)]

/-! ## RESET (R190) -/

theorem State.reg_launch (s : State) (program : List Byte) (r : Reg) : (s.launch program).reg r = 0 := by
  obtain ⟨hv, -⟩ := s.launch_fields program
  rw [State.reg, hv, Vector.get_eq_getElem, Vector.getElem_replicate]

theorem State.launch_wf {s : State} {program : List Byte} (h : s.cfg.loadBase + program.length ≤ 4096) :
    Memory.wf (s.launch program).cfg (s.launch program).mem :=
  State.storeBytes_wf (Memory.wf_nil s.cfg) h

theorem State.readByte_launch_inside {s : State} {program : List Byte}
    (h : s.cfg.loadBase + program.length ≤ 4096) {j : Nat} (hj : j < program.length) :
    (s.launch program).readByte (s.cfg.loadBase + j) = program[j] :=
  State.readByte_storeBytes_inside (Memory.wf_nil s.cfg) h hj

theorem State.readByte_launch_outside (s : State) {program : List Byte} {a : Nat}
    (h : a < s.cfg.loadBase ∨ s.cfg.loadBase + program.length ≤ a) :
    (s.launch program).readByte a = Memory.blank s.cfg a :=
  State.readByte_storeBytes_outside _ _ _ h

/-- Settles O15: RESET writes every field, and stores the program over a memory that lists nothing. -/
theorem resetEventInitialisesEverything : Obligations.ResetEventInitialisesEverything := by
  intro s program es he hcfg fits
  have stepped : step s = .next ((s.withEvents es).launch program) := by
    rw [step_of_reset he, if_pos ((s.cfg.imageFits_iff program).mpr fits)]
  obtain ⟨-, hi, hpc, hstack, hdt, hst, hfb, hhalted, hcode, hinstr, hfpc, hcfg', henv⟩ :=
    (s.withEvents es).launch_fields program
  refine ⟨_, stepped, State.reg_launch _ _, hi, ?pc, hstack, hdt, hst, ?screen, hhalted, hcode, hinstr, hfpc,
    fun j hj => State.readByte_launch_inside (s := s.withEvents es) fits hj, fun a ha => ⟨?font, ?fill⟩, hcfg', henv⟩
  case pc => rw [hpc, State.withEvents_cfg, s.cfg.toNat_loadBase hcfg]
  case screen =>
    intro r c
    rw [hfb, Screen.pixel_clear]
  case font =>
    rintro j rfl
    exact ((s.withEvents es).readByte_launch_outside ha).trans (Memory.blank_font _ j)
  case fill =>
    intro hout
    exact ((s.withEvents es).readByte_launch_outside ha).trans (Memory.blank_outside_font hout)

/-- Settles O16: the reset state's fields are written out, and its memory lists nothing. -/
theorem resetStateHoldsTheResetValues : Obligations.ResetStateHoldsTheResetValues := by
  refine ⟨by decide, rfl, rfl, rfl, rfl, rfl, Screen.pixel_clear, rfl, rfl, rfl, rfl,
    fun j => ?font, fun a ha => ?fill⟩
  case font =>
    have blank := Memory.blank_font defaultConfig j
    rw [show defaultConfig.fontBase = 0 from rfl, Nat.zero_add] at blank
    exact blank
  case fill => exact Memory.blank_outside_font (c := defaultConfig) (.inr ha)

/-! ## The invariant after each operation -/

/-- The invariant says nothing of the timers and of the model's own fields. -/
theorem State.Inv.of_eq {s t : State} (inv : s.Inv) (h : t = { s with dt := t.dt, st := t.st, env := t.env }) :
    t.Inv := by
  rw [h]
  exact ⟨inv.cfg, inv.mem, inv.pc, inv.returns, inv.depth, ⟨inv.record.running, inv.record.stopped⟩⟩

theorem State.Inv.takeUpcoming {s : State} (inv : s.Inv) : s.takeUpcoming.Inv :=
  inv.of_eq (by rw [State.takeUpcoming_eq])

/-- Halt entry writes a code from 1 to 4 and the PC it keeps (60_exceptions.md R166, R167). -/
theorem State.Inv.raise {s : State} (inv : s.Inv) (f : Fault) (w : Word) : (s.raise f w).Inv where
  cfg := inv.cfg
  mem := inv.mem
  pc := inv.pc
  returns := inv.returns
  depth := inv.depth
  record := ⟨nofun, fun _ => ⟨f.code_bounds.1, f.code_bounds.2, rfl⟩⟩

theorem State.Inv.launch {s : State} (inv : s.Inv) {program : List Byte}
    (fits : s.cfg.loadBase + program.length ≤ 4096) : (s.launch program).Inv := by
  obtain ⟨-, -, hpc, hstack, -, -, -, hhalted, hcode, hinstr, hfpc, hcfg, -⟩ := s.launch_fields program
  have hload := s.cfg.loadBase_add_two_le inv.cfg
  refine ⟨?cfg, State.launch_wf fits, ?pc, ?returns, ?depth, ⟨fun _ => ⟨hcode, hinstr, hfpc⟩, ?stopped⟩⟩
  case cfg => rw [hcfg, inv.cfg]
  case pc =>
    rw [hpc, s.cfg.toNat_loadBase inv.cfg]
    omega
  case returns =>
    rw [hstack]
    exact nofun
  case depth =>
    rw [hstack]
    exact fun _ _ => Nat.zero_le _
  case stopped =>
    rw [hhalted]
    exact nofun

/-! ## The invariant after an instruction -/

/-- A return pops the stack, a call that is accepted pushes the next address, nothing else changes it. -/
theorem exec_stack {i : Instr} {s t : State} (h : exec i s = .next t) :
    t.stack = s.stack ∨ (∃ w, s.stack = w :: t.stack) ∨
      (s.stackFull = false ∧ t.stack = (s.pc + 2) :: s.stack) := by
  rcases (exec_writesAtMost h).stack with same | rfl | ⟨nnn, rfl⟩
  · exact .inl same
  · rcases execRet_cases h with ⟨-, rfl⟩ | ⟨target, rest, pushed, rfl⟩
    · exact .inl rfl
    · exact .inr (.inl ⟨target, pushed⟩)
  · rcases execCall_cases h with ⟨-, rfl⟩ | ⟨notFull, rfl⟩
    · exact .inl rfl
    · exact .inr (.inr ⟨notFull, rfl⟩)

/-- The two stores keep the canonical form, since their whole range is inside memory. -/
theorem exec_mem_wf {i : Instr} {s t : State} (hm : Memory.wf s.cfg s.mem) (h : exec i s = .next t) :
    Memory.wf t.cfg t.mem := by
  rcases (exec_writesAtMost h).mem with same | ⟨x, rfl⟩ | ⟨x, rfl⟩
  · rw [(exec_keepsEnv h).1, same]
    exact hm
  · rcases execLdB_cases h with rfl | ⟨hin, rfl⟩
    · exact hm
    · exact State.storeBytes_wf (s := s.advance) hm hin
  · rcases execStRegs_cases h with rfl | ⟨hin, rfl⟩
    · exact hm
    · exact State.storeBytes_wf (s := s.advance) hm (by rwa [State.length_regRun])

/-- An instruction that was fetched inside memory and halts nothing leaves PC at most at `0xFFF + 0xFF`, which
`Bnnn` reaches (10_state.md R15). -/
theorem exec_pc_le {i : Instr} {s t : State} (inv : s.Inv) (running : s.halted = false)
    (hp : s.pc.toNat + 2 ≤ 4096) (h : exec i s = .next t) (notHalted : t.halted = false) :
    t.pc.toNat ≤ 0x10FE := by
  rcases programCounterAfterEachInstruction i s t running h notHalted with
    next | ⟨-, popped⟩ | ⟨nnn, -, target⟩ | ⟨nnn, -, target⟩ | ⟨skipped, -⟩ | ⟨waits, -⟩
  · rw [next]
    bv_omega
  · have bound : t.pc.toNat ≤ 4096 := inv.returns _ (List.mem_of_mem_head? popped)
    omega
  · omega
  · omega
  · rw [skipped]
    bv_omega
  · rw [waits]
    omega

theorem exec_keepsInv {i : Instr} {s t : State} (inv : s.Inv) (running : s.halted = false)
    (hp : s.pc.toNat + 2 ≤ 4096) (h : exec i s = .next t) : t.Inv := by
  rcases exec_cases h with ⟨f, rfl⟩ | same
  · exact inv.raise f _
  · have notHalted : t.halted = false := same.halted.trans running
    refine ⟨?cfg, exec_mem_wf inv.mem h, exec_pc_le inv running hp h notHalted, ?returns, ?depth, ?record⟩
    case cfg => rw [same.cfg, inv.cfg]
    case returns =>
      intro w hw
      rcases exec_stack h with kept | ⟨_, popped⟩ | ⟨-, pushed⟩
      · exact inv.returns w (kept ▸ hw)
      · exact inv.returns w (popped ▸ List.mem_cons_of_mem _ hw)
      · rw [pushed] at hw
        rcases List.mem_cons.mp hw with rfl | hw
        · show (s.pc + 2).toNat ≤ 4096
          bv_omega
        · exact inv.returns w hw
    case depth =>
      intro d hd
      rw [same.cfg] at hd
      have bound := inv.depth d hd
      rcases exec_stack h with kept | ⟨_, popped⟩ | ⟨notFull, pushed⟩
      · rw [kept]
        exact bound
      · rw [popped, List.length_cons] at bound
        omega
      · have room : s.stack.length ≠ d := by
          rintro rfl
          rw [s.stackFull_iff.mpr hd] at notFull
          cases notFull
        rw [pushed, List.length_cons]
        omega
    case record =>
      obtain ⟨hcode, hinstr, hfpc⟩ := inv.record.running running
      refine ⟨fun _ => ⟨same.faultCode.trans hcode, same.faultInstr.trans hinstr, same.faultPc.trans hfpc⟩, ?_⟩
      rw [notHalted]
      exact nofun

theorem interpret_keepsInv {s t : State} (inv : s.Inv) (running : s.halted = false)
    (h : interpret s = .next t) : t.Inv := by
  rcases interpret_cases s with ⟨-, e⟩ | ⟨w, -, e⟩ | ⟨w, i, hf, -, e⟩ <;> rw [e] at h
  · cases h
    exact inv.raise _ _
  · cases h
    exact inv.raise _ _
  · exact exec_keepsInv inv running (State.pc_add_two_le_of_fetch hf) h

/-! ## The obligations -/

/-- Settles O17: the default parameters are legal, and everything the invariant bounds is empty or zero. -/
theorem invariantHoldsAtReset : Obligations.InvariantHoldsAtReset where
  cfg := by decide
  mem := Memory.wf_nil _
  pc := by decide
  returns := nofun
  depth := nofun
  record := ⟨fun _ => ⟨rfl, rfl, rfl⟩, nofun⟩

/-- Settles O18, by the kind of step: a TICK and a STEP of a halted block touch nothing the invariant speaks of, a
STEP of a running block ends as the step cycle does, a RESET starts from nothing. -/
theorem stepKeepsInvariant : Obligations.StepKeepsInvariant := by
  intro s t inv h
  rcases step_cases h with ⟨-, rfl⟩ | ⟨_, _, -, -, rfl⟩ | ⟨key, rnd, -, running, hi⟩ | ⟨program, es, -, fits, rfl⟩
  · exact inv.takeUpcoming.of_eq rfl
  · exact inv.takeUpcoming
  · have sampled : (s.takeUpcoming.sample key rnd).Inv := inv.takeUpcoming.of_eq rfl
    exact interpret_keepsInv sampled (by simp [running]) hi
  · have listed : (s.withEvents es).Inv := inv.of_eq rfl
    exact listed.launch ((s.cfg.imageFits_iff program).mp fits)

end Machine
end Sys2Proof
end
